-- ==== Sys2Proof/Word.lean ====
section
/-!
DEFINITION. The word types of the block (spec/00_scope.md R11, R12, R16, R17): every value is an
unsigned bit vector, bit 0 the least significant. No value is signed.
-/

namespace Sys2Proof

/-- `bits8` (R16): a wire byte, a character code, a table entry (`BYTE_W = 8`, R11). -/
abbrev Byte := BitVec 8

/-- `bits16` (R16): the numeric display value (`VALUE_W = 16`, R12). -/
abbrev Half := BitVec 16

/-- `bits64` (R16): a command word (R80). -/
abbrev Word := BitVec 64

end Sys2Proof
end

