-- ==== Sys2Proof/Syntax.lean ====
section
/-!
DEFINITION. The instructions: one constructor for each row of spec/opcode_table.json, and the lines
and pin ops they are made of (spec/00_scope.md R4, R19; spec/30_encoding.md R80 to R99).
-/

namespace Sys2Proof

/-- A line (R19, R100): the clock line or the data line. -/
inductive Line where
  | clk
  | dat
deriving DecidableEq, Repr, Inhabited

/-- A pin op (R19): a line and the level it is set to (`true` = 1 = released, R42). -/
structure PinOp where
  line : Line
  level : Bool
deriving DecidableEq, Repr, Inhabited

/-- `C0` (R19). -/
abbrev PinOp.c0 : PinOp := ⟨.clk, false⟩
/-- `C1` (R19). -/
abbrev PinOp.c1 : PinOp := ⟨.clk, true⟩
/-- `D0` (R19). -/
abbrev PinOp.d0 : PinOp := ⟨.dat, false⟩
/-- `D1` (R19). -/
abbrev PinOp.d1 : PinOp := ⟨.dat, true⟩

/-- The rows of spec/opcode_table.json: four commands, two pseudo-instructions, seven internal
primitives, five classes of wire bytes. -/
inductive Instr where
  /-- SET_BRIGHTNESS, `BRIGHT <level>` (R182): `LEVEL`, 4 bits. -/
  | setBrightness (level : BitVec 4)
  /-- DISPLAY_TEXT, `TEXT <sep>, <len>, <c0>, <c1>, <c2>, <c3>` (R185). -/
  | displayText (sep : Bool) (len c0 c1 c2 c3 : Byte)
  /-- DISPLAY_NUMBER, `NUM <sep>, <value>` (R191). -/
  | displayNumber (sep : Bool) (value : Half)
  /-- RESERVED, `RSVD` (R195). -/
  | reserved
  /-- TEXTS, `TEXTS <sep>, "<s>"` (R99): a pseudo-instruction. -/
  | texts (sep : Bool) (str : List Byte)
  /-- OFF (R99): a pseudo-instruction. -/
  | off
  /-- SET_LINE (R101). -/
  | setLine (line : Line) (level : Bool)
  /-- START (R120). -/
  | start
  /-- STOP (R121). -/
  | stop
  /-- SKIP_ACK (R122). -/
  | skipAck
  /-- WRITE_BIT (R140). -/
  | writeBit (v : Bool)
  /-- WRITE_BYTE (R141). -/
  | writeByte (b : Byte)
  /-- LUT_READ (R160): an 8-bit character code. -/
  | lutRead (c : Byte)
  /-- WIRE_BRIGHTNESS_DISABLED, the byte `0x87` (R183). -/
  | wireBrightnessDisabled
  /-- WIRE_BRIGHTNESS_LEVEL, the byte `0b10001xxx`, `xxx` = level - 1 (R91). -/
  | wireBrightnessLevel (x : BitVec 3)
  /-- WIRE_DATA_MODE, the byte `0x40` (R92). -/
  | wireDataMode
  /-- WIRE_ADDRESS_0, the byte `0xC0` (R94). -/
  | wireAddress0
  /-- WIRE_SEGMENT, `pgfedcba` (R95): any 8-bit value, by its position in the display frame. -/
  | wireSegment (pattern : Byte)
deriving DecidableEq, Repr

/-- The length operand of TEXTS, `min(|s|, 255)` (R99). -/
def textsLen (str : List Byte) : Byte := BitVec.ofNat 8 (min str.length 255)

/-- Character `i` of TEXTS, 0 where `i >= |s|` (R99). -/
def textsChar (str : List Byte) (i : Nat) : Byte := str.getD i 0

/-- The core instruction an instruction stands for: a pseudo-instruction's expansion (R99), every
other instruction itself. -/
def Instr.core : Instr → Instr
  | .setBrightness level => .setBrightness level
  | .displayText sep len c0 c1 c2 c3 => .displayText sep len c0 c1 c2 c3
  | .displayNumber sep value => .displayNumber sep value
  | .reserved => .reserved
  | .texts sep str =>
    .displayText sep (textsLen str) (textsChar str 0) (textsChar str 1) (textsChar str 2)
      (textsChar str 3)
  | .off => .setBrightness 0
  | .setLine line level => .setLine line level
  | .start => .start
  | .stop => .stop
  | .skipAck => .skipAck
  | .writeBit v => .writeBit v
  | .writeByte b => .writeByte b
  | .lutRead c => .lutRead c
  | .wireBrightnessDisabled => .wireBrightnessDisabled
  | .wireBrightnessLevel x => .wireBrightnessLevel x
  | .wireDataMode => .wireDataMode
  | .wireAddress0 => .wireAddress0
  | .wireSegment pattern => .wireSegment pattern

end Sys2Proof
end

