-- ==== Sys2Proof/WellFormed.lean ====
section
/-!
DEFINITION. Well-formed instructions. The operand ranges of spec/30_encoding.md R98 (level 0..15,
len 0..255, a character 0..255, value 0..65535, sep 0 or 1) are the operands' types, so one check is
left: the quoted string of TEXTS holds ASCII characters (R98, R99; log 15).
-/

namespace Sys2Proof

/-- A quoted character is ASCII: a 7-bit code (R98, R163). -/
def asciiChar (c : Byte) : Bool := decide (c < 0x80#8)

/-- The check on an instruction's operands (R98, R99); one arm for each constructor. -/
def Instr.wellFormed : Instr → Bool
  | .setBrightness _ => true
  | .displayText _ _ _ _ _ _ => true
  | .displayNumber _ _ => true
  | .reserved => true
  | .texts _ str => str.all asciiChar
  | .off => true
  | .setLine _ _ => true
  | .start => true
  | .stop => true
  | .skipAck => true
  | .writeBit _ => true
  | .writeByte _ => true
  | .lutRead _ => true
  | .wireBrightnessDisabled => true
  | .wireBrightnessLevel _ => true
  | .wireDataMode => true
  | .wireAddress0 => true
  | .wireSegment _ => true

end Sys2Proof
end

