-- ==== Sys2Proof/Decode.lean ====
section
/-!
DEFINITION. Decoding and encoding. Two encodings exist: the 64-bit command word (spec/30_encoding.md
R80 to R89), of which every value is a command (R97), and the 8-bit wire byte (R90 to R96), which is
read by its position in a frame. The internal primitives have no encoding (spec/opcode_table.json).
-/

namespace Sys2Proof

/-! ### The fields of a command word (R80) -/

/-- `OP = CMD_WORD[1:0]` (R81). -/
def fieldOp (w : Word) : BitVec 2 := w.extractLsb' 0 2
/-- `SEP = CMD_WORD[2]` (R82). -/
def fieldSep (w : Word) : Bool := w.getLsbD 2
/-- `LEVEL = CMD_WORD[11:8]` (R83). -/
def fieldLevel (w : Word) : BitVec 4 := w.extractLsb' 8 4
/-- `LEN = CMD_WORD[23:16]` (R84). -/
def fieldLen (w : Word) : Byte := w.extractLsb' 16 8
/-- `C_i = CMD_WORD[32+8i+7 : 32+8i]` (R85). -/
def fieldChar (w : Word) (i : Nat) : Byte := w.extractLsb' (32 + 8 * i) 8
/-- `VALUE = CMD_WORD[47:32]` (R86). -/
def fieldValue (w : Word) : Half := w.extractLsb' 32 16

/-- The decoder of command words (R81, R88): total, since no word is illegal (R97). -/
def decodeCommand (w : Word) : Instr :=
  if fieldOp w = 0#2 then .setBrightness (fieldLevel w)
  else if fieldOp w = 1#2 then
    .displayText (fieldSep w) (fieldLen w) (fieldChar w 0) (fieldChar w 1) (fieldChar w 2)
      (fieldChar w 3)
  else if fieldOp w = 2#2 then .displayNumber (fieldSep w) (fieldValue w)
  else .reserved

/-! ### Wire bytes -/

/-- Where a wire byte stands in its frame (R95, R96). -/
inductive WirePos where
  /-- The first byte of a frame. -/
  | first
  /-- A data byte of the frame that `0xC0` opened. -/
  | data
deriving DecidableEq, Repr

/-- Why a code is not an instruction. -/
inductive DecodeError where
  /-- A byte the block never transmits in a frame's first position (R96). -/
  | notAFirstByte (b : Byte)
deriving DecidableEq, Repr

/-- The decoder of wire bytes by position (R91 to R96); it rejects by name every byte that cannot
open a frame (log 16). -/
def decodeWire : WirePos → Byte → Except DecodeError Instr
  | .data, b => .ok (.wireSegment b)
  | .first, b =>
    if b = 0x87#8 then .ok .wireBrightnessDisabled
    else if b.extractLsb' 3 5 = 0b10001#5 then .ok (.wireBrightnessLevel (b.extractLsb' 0 3))
    else if b = 0x40#8 then .ok .wireDataMode
    else if b = 0xC0#8 then .ok .wireAddress0
    else .error (.notAFirstByte b)

/-- An encoded instruction: a command word or a wire byte in its position. -/
inductive Code where
  | command (w : Word)
  | wire (pos : WirePos) (b : Byte)
deriving DecidableEq, Repr

/-- The whole decoder. -/
def decode : Code → Except DecodeError Instr
  | .command w => .ok (decodeCommand w)
  | .wire pos b => decodeWire pos b

/-! ### The encoder (R89, R91 to R95) -/

/-- `enc_BRIGHT(level)` (R89). -/
def encBright (level : BitVec 4) : Word := level.setWidth 64 <<< 8 ||| 0#64

/-- `enc_TEXT(sep, len, c0..c3)` (R89). -/
def encText (sep : Bool) (len c0 c1 c2 c3 : Byte) : Word :=
  c3.setWidth 64 <<< 56 ||| c2.setWidth 64 <<< 48 ||| c1.setWidth 64 <<< 40 ||| c0.setWidth 64 <<< 32
    ||| len.setWidth 64 <<< 16 ||| (BitVec.ofBool sep).setWidth 64 <<< 2 ||| 1#64

/-- `enc_NUM(sep, value)` (R89). -/
def encNum (sep : Bool) (value : Half) : Word :=
  value.setWidth 64 <<< 32 ||| (BitVec.ofBool sep).setWidth 64 <<< 2 ||| 2#64

/-- `enc_RSVD` (R89). -/
def encRsvd : Word := 3#64

/-- The byte of WIRE_BRIGHTNESS_LEVEL, `0b10001xxx` (R91). -/
def levelByte (x : BitVec 3) : Byte := 0b10001#5 ++ x

/-- The encoder: the code of an instruction; none for an internal primitive, which has no encoding. -/
def encode : Instr → Option Code
  | .setBrightness level => some (.command (encBright level))
  | .displayText sep len c0 c1 c2 c3 => some (.command (encText sep len c0 c1 c2 c3))
  | .displayNumber sep value => some (.command (encNum sep value))
  | .reserved => some (.command encRsvd)
  | .texts sep str =>
    some (.command (encText sep (textsLen str) (textsChar str 0) (textsChar str 1)
      (textsChar str 2) (textsChar str 3)))
  | .off => some (.command (encBright 0))
  | .setLine _ _ => none
  | .start => none
  | .stop => none
  | .skipAck => none
  | .writeBit _ => none
  | .writeByte _ => none
  | .lutRead _ => none
  | .wireBrightnessDisabled => some (.wire .first 0x87#8)
  | .wireBrightnessLevel x => some (.wire .first (levelByte x))
  | .wireDataMode => some (.wire .first 0x40#8)
  | .wireAddress0 => some (.wire .first 0xC0#8)
  | .wireSegment pattern => some (.wire .data pattern)

/-- The rows of spec/opcode_table.json whose encoding is "none": the internal primitives. -/
def Instr.isPrimitive : Instr → Bool
  | .setBrightness _ => false
  | .displayText _ _ _ _ _ _ => false
  | .displayNumber _ _ => false
  | .reserved => false
  | .texts _ _ => false
  | .off => false
  | .setLine _ _ => true
  | .start => true
  | .stop => true
  | .skipAck => true
  | .writeBit _ => true
  | .writeByte _ => true
  | .lutRead _ => true
  | .wireBrightnessDisabled => false
  | .wireBrightnessLevel _ => false
  | .wireDataMode => false
  | .wireAddress0 => false
  | .wireSegment _ => false

/-! ### The host's table words -/

/-- The code that `nbits` bits `w` of a table row stand for (log 3): 8 bits that can open a frame are
that wire byte; any other 1 to 64 bits are a command word whose higher bits are 0. -/
def codeOfTableWord (nbits w : Nat) : Option Code :=
  if nbits = 0 ∨ 64 < nbits then none
  else if nbits = 8 then
    match decodeWire .first (BitVec.ofNat 8 w) with
    | .ok _ => some (.wire .first (BitVec.ofNat 8 w))
    | .error _ => some (.command (BitVec.ofNat 64 (w % 2 ^ nbits)))
  else some (.command (BitVec.ofNat 64 (w % 2 ^ nbits)))

/-- What the decoder reads from a table row's bits (log 3). -/
def decodeTableWord (nbits w : Nat) : Option Instr :=
  match codeOfTableWord nbits w with
  | none => none
  | some c =>
    match decode c with
    | .ok i => some i
    | .error _ => none

end Sys2Proof
end

