-- ==== Sys2Proof/Config.lean ====
section
/-!
DEFINITION. The implementation parameters of spec/00_scope.md section 3 (R8 to R15): the fixed ones
as plain definitions, the open ones (`F_CLK`, `SETTLE_CYCLES`, `CHAR_LUT`, the pin assignment) as
free values with no body, shaped so that every value the spec allows, and no other, is one of them. Last,
the values that the FSM's rules do not state for registers outside their ranges (log 11), free too.
-/

namespace Sys2Proof.Config

/-- `N_POS` (R8): display positions addressed. -/
def nPos : Nat := 4

/-- `N_LUT` (R9): entries of the character table. -/
def nLut : Nat := 128

/-- `N_LEVELS` (R10): brightness members, "disabled" and 8 intensities. -/
def nLevels : Nat := 9

/-- `T_SETTLE` (R13) in microseconds: the reference minimum. -/
def tSettleMicros : Nat := 2

/-- `SETTLE_CYCLES` is OPEN (R14, D12): this free value is `SETTLE_CYCLES - 1` (log 4). -/
opaque settlePred : Nat

/-- `SETTLE_CYCLES` (R14): SYSCLK cycles from one line set to the next, at least 1. -/
def settleCycles : Nat := settlePred + 1

/-- `F_CLK` is OPEN (R14, D12), a positive real number of hertz: this free value says how much slower it
is than the fastest clock that `SETTLE_CYCLES` allows (log 4). -/
opaque clockSlack : ℝ

/-- The clock in hertz that is `1 + |slack|` times slower than the fastest one a settle length of `cycles`
allows, `cycles / T_SETTLE` (R14). -/
noncomputable def clock (cycles : Nat) (slack : ℝ) : ℝ :=
  cycles * 1000000 / (tSettleMicros * (1 + |slack|))

/-- `F_CLK` in hertz (R14). A configuration too fast for its settle length (R110) cannot be written. -/
noncomputable def fClk : ℝ := clock settleCycles clockSlack

/-- `ceil(T_SETTLE × F_CLK)` for `F_CLK = num / den` hertz: the least legal settle length (R14). -/
def minSettle (num den : Nat) : Nat :=
  (tSettleMicros * num + (1000000 * den - 1)) / (1000000 * den)

/-- `DLY_W = max(1, ceil(log2(SETTLE_CYCLES)))` (R39), as a function of the settle length. -/
def dlyWidth (cycles : Nat) : Nat :=
  if cycles ≤ 2 then 1 else Nat.log2 (cycles - 1) + 1

/-- `DLY_W` (R39): the width of the delay counter. -/
def dlyW : Nat := dlyWidth settleCycles

/-- A value of the delay counter (R39). -/
abbrev Delay := BitVec dlyW

/-- Segments a to g of the entries of `CHAR_LUT` that the spec does not fix (R15, R167, U1): a free
value (log 5). -/
opaque freeSegments : BitVec 7 → BitVec 7

/-- `CHAR_LUT` (R15): the five pinned entries (R162 to R165) and, elsewhere, any value with bit 7
clear (R166, D11). The codes are ASCII (R163, log 6). -/
def charLut (i : BitVec 7) : Byte :=
  if i = 0x30#7 then 0x3F#8
  else if i = 0x32#7 then 0x5B#8
  else if i = 0x34#7 then 0x66#8
  else if i = 0x41#7 then 0x77#8
  else if i = 0x42#7 then 0x7C#8
  else (freeSegments i).setWidth 8

/-- A pin of the platform, "(port, pin-number)" (R46). -/
structure Pin where
  port : Nat
  number : Nat
deriving DecidableEq, Repr

/-- The pin `CLK_O` is wired to (R46): a free value (log 7). -/
opaque clkPinFree : Nat × Nat

/-- The pin `DAT_O` is wired to, before distinctness is enforced (R46): a free value (log 7). -/
opaque datPinFree : Nat × Nat

/-- The pin that `CLK_O` drives (R46). -/
def clkPin : Pin := ⟨clkPinFree.1, clkPinFree.2⟩

/-- The pin that `DAT_O` drives (R46): "the two lines must be distinct; they may belong to different
ports". -/
def datPin : Pin :=
  if datPinFree = clkPinFree then ⟨datPinFree.1, datPinFree.2 + 1⟩ else ⟨datPinFree.1, datPinFree.2⟩

/-! ### Values the spec does not state (log 11) -/

/-- `OpAt(st, sub, bit, bi)` for a `sub` past the steps of its primitive, which no row of R215 gives: a
free pin op, for each value of `st`, `sub`, `bit`, `bi` and the bytes of the queue. -/
opaque opPastRow : BitVec 3 → BitVec 2 → BitVec 3 → BitVec 3 → List Byte → PinOp

/-- `Q[j]` for `j` past the six entries (R35): a free byte, for each `j` and the bytes of the queue. -/
opaque bytePastQueue : BitVec 3 → List Byte → Byte

/-- `qlen - 1` for `qlen = 0` (R216), no unsigned value (R17): a free number. -/
opaque lastOfEmptyQueue : Int

/-- `bi + 1` for `bi = 7` (R216), no 3-bit value (R36): a free value. -/
opaque byteAfterSeven : BitVec 3

end Sys2Proof.Config
end

