-- ==== Sys2Proof/Machine/State.lean ====
section
/-!
DEFINITION. The state of the block: the registers of spec/10_state.md R34 to R40, the observation
`W` (R44), and the model's own `lutData` (log 10) and `inputs` (log 2). Reset values: R43.
-/

namespace Sys2Proof.Machine

/-- `st` (R34), 3 bits: `IDLE = 0` to `DONE = 5`, and the unused encodings 6 and 7 (R223). -/
inductive FsmState where
  | idle
  | start
  | bit
  | ack
  | stop
  | done
  | unused6
  | unused7
deriving DecidableEq, Repr

/-- The 3-bit encoding of `st` (R34). -/
def FsmState.code : FsmState → BitVec 3
  | .idle => 0
  | .start => 1
  | .bit => 2
  | .ack => 3
  | .stop => 4
  | .done => 5
  | .unused6 => 6
  | .unused7 => 7

/-- The six 8-bit registers `Q[0..5]` of the byte queue (R35). -/
structure ByteQueue where
  q0 : Byte
  q1 : Byte
  q2 : Byte
  q3 : Byte
  q4 : Byte
  q5 : Byte
deriving DecidableEq, Repr

/-- An element of the wire trace `W` (R19, R44): a pin op or the reset marker `Rst`. -/
inductive Obs where
  | pin (op : PinOp)
  | rst
deriving DecidableEq, Repr

/-- The input ports at one SYSCLK edge (R33). -/
structure PortIn where
  rst : Bool
  cmdValid : Bool
  cmdWord : Word
deriving DecidableEq, Repr

/-- The state of the block. -/
structure State where
  /-- `st` (R34). -/
  st : FsmState
  /-- `sub`, the step index inside one primitive (R38). -/
  sub : BitVec 2
  /-- `bit`, the bit index (R37). -/
  bit : BitVec 3
  /-- `bi`, the byte index (R36). -/
  bi : BitVec 3
  /-- `dly`, the settle delay counter, `DLY_W` bits (R39). -/
  dly : Config.Delay
  /-- `Q[0..5]` (R35). -/
  q : ByteQueue
  /-- `qlen`, the number of valid bytes (R35). -/
  qlen : BitVec 3
  /-- `brk`, a stop and a new start after `Q[0]` (R35). -/
  brk : Bool
  /-- `clk_o` (R40); `true` = 1 = released (R42). -/
  clkO : Bool
  /-- `dat_o` (R40); `true` = 1 = released (R42). -/
  datO : Bool
  /-- `W`, the wire trace (R44), oldest first. -/
  w : List Obs
  /-- The model's own (log 10): what the table read port last answered to a LUT_READ (R160). -/
  lutData : Byte
  /-- The model's own (log 2): the input ports at the edges to come, the next edge first. -/
  inputs : List PortIn
deriving DecidableEq, Repr

/-- Why the machine stops with a fault: for no reason. "The block raises no exception and reports no error"
(R240), and no behaviour of it is a fault (93_implementation_defined.md section 1). -/
inductive Fault where
deriving DecidableEq, Repr

/-- Why an instruction has no meaning. -/
inductive Refusal where
  /-- Raised by `exec` for an instruction without a meaning; no arm of this model uses it. Safe. -/
  | notModelled (mnemonic : String)
deriving DecidableEq, Repr

/-- The byte queue after reset: every `Q[i] = 0x00` (R43). -/
def ByteQueue.zero : ByteQueue := ⟨0, 0, 0, 0, 0, 0⟩

/-- The machine right after reset (R43), with `W = []` as a model starts (R44), no host input to come
(log 2) and `lutData = 0x00` (log 10). -/
def State.reset : State where
  st := .idle
  sub := 0
  bit := 0
  bi := 0
  dly := 0
  q := ByteQueue.zero
  qlen := 0
  brk := false
  clkO := true
  datO := true
  w := []
  lutData := 0
  inputs := []

end Sys2Proof.Machine
end

