-- ==== Sys2Proof/Machine/Ops.lean ====
section
/-!
DEFINITION. The named operations on the registers: setting a line (spec/40_gpio_timing.md R101), the
delay counter (R102), the byte queue (spec/10_state.md R35), the reset edge
(spec/70_reset_and_hazards.md R260) and the input ports (R33). The block takes no exception and returns
from none (spec/60_exceptions.md R240, R244): a reset edge is the one way a running command is left.
-/

namespace Sys2Proof.Machine

/-! ### Lines -/

/-- The register write of `SetLine` (R101). -/
def State.drive (line : Line) (level : Bool) (s : State) : State :=
  match line with
  | .clk => { s with clkO := level }
  | .dat => { s with datO := level }

/-- `emit(op)` (R19): `W <- W ++ [op]`. -/
def State.emit (op : PinOp) (s : State) : State := { s with w := s.w ++ [.pin op] }

/-- `r.dly <- SETTLE_CYCLES - 1` (R101); the value fits in `DLY_W` bits (R39). -/
def State.startSettle (s : State) : State :=
  { s with dly := BitVec.ofNat Config.dlyW (Config.settleCycles - 1) }

/-- `SetLine(L, v)` (R101), whether or not the level changes (R105). -/
def State.setLine (line : Line) (level : Bool) (s : State) : State :=
  ((s.drive line level).emit ⟨line, level⟩).startSettle

/-- `dly <- dly - 1` (R102). -/
def State.countDown (s : State) : State := { s with dly := s.dly - 1 }

/-! ### The byte queue -/

/-- The six entries in order. -/
def ByteQueue.toList (q : ByteQueue) : List Byte := [q.q0, q.q1, q.q2, q.q3, q.q4, q.q5]

/-- `Q[j]` (R35): entries 0 to 5; past them the byte is a free value (log 11). -/
def ByteQueue.entry (q : ByteQueue) (j : BitVec 3) : Byte :=
  match j.toNat with
  | 0 => q.q0
  | 1 => q.q1
  | 2 => q.q2
  | 3 => q.q3
  | 4 => q.q4
  | 5 => q.q5
  | _ => Config.bytePastQueue j q.toList

/-- `Q[i] <- Qs[i]` for `i < |Qs|`, `0x00` for the rest (R212). -/
def ByteQueue.ofList (bs : List Byte) : ByteQueue :=
  ⟨bs.getD 0 0, bs.getD 1 0, bs.getD 2 0, bs.getD 3 0, bs.getD 4 0, bs.getD 5 0⟩

/-- The queue a command is expanded into (R180): its bytes and the frame break. -/
structure Queue where
  bytes : List Byte
  brk : Bool
deriving DecidableEq, Repr

/-- Load the byte queue and go to the first pin op (R212). -/
def State.loadQueue (c : Queue) (s : State) : State :=
  { s with
    q := ByteQueue.ofList c.bytes
    qlen := BitVec.ofNat 3 c.bytes.length
    brk := c.brk
    st := .start
    sub := 0
    bit := 0
    bi := 0
    dly := 0 }

/-- Accept a command's queue (R211, R212): only in `IDLE`; a command offered in any other state is not
accepted and leaves no trace (log 14). No pin op is performed and no line changes. -/
def State.acceptQueue (c : Queue) (s : State) : State :=
  if s.st = .idle then s.loadQueue c else s

/-! ### Reset -/

/-- The marker of a reset edge (R44): `Rst` is appended unless it is the last element already. -/
def markReset (w : List Obs) : List Obs :=
  if w.getLast? = some .rst then w else w ++ [.rst]

/-- A SYSCLK edge with `RST = 1` (R260): every register takes its reset value (R43), `W` gets the
marker. The model's own fields are no registers and stay (log 2, log 10). -/
def State.resetEdge (s : State) : State :=
  { State.reset with
    w := markReset s.w
    lutData := s.lutData
    inputs := s.inputs }

/-! ### The input ports -/

/-- The input ports of an edge past the host's schedule: nothing asserted (log 2). -/
def PortIn.quiet : PortIn := ⟨false, false, 0⟩

/-- The input ports at the next edge (R33, log 2). -/
def State.portIn (s : State) : PortIn := s.inputs.headD PortIn.quiet

/-- The state with the next edge's inputs used up (log 2). -/
def State.takeInput (s : State) : State := { s with inputs := s.inputs.tail }

/-! ### Placing a word where the next step takes it (log 3) -/

/-- Offer a command word to an idle block at the next edge. -/
def State.offerWord (word : Word) (s : State) : State :=
  { s with st := .idle, inputs := ⟨false, true, word⟩ :: s.inputs }

/-- Put a byte that opens a frame at the head of the byte queue, its transmission to begin at the next
edge. -/
def State.queueWireByte (b : Byte) (s : State) : State :=
  { s.loadQueue ⟨[b], false⟩ with inputs := PortIn.quiet :: s.inputs }

end Sys2Proof.Machine
end

