-- ==== Sys2Proof/Machine/Lut.lean ====
section
/-!
DEFINITION. The 7-segment character table (spec/43_char_lut.md) and the instruction LUT_READ.
-/

namespace Sys2Proof.Machine

/-- `Seg(c) = LutRead(c[6:0]) = CHAR_LUT[c & 0x7F]` (R160, R161). -/
def seg (c : Byte) : Byte := Config.charLut (c.setWidth 7)

/-- LUT_READ (R160): the entry of the masked code. The read has no side effect (R63); its data stands
in the model's own `lutData` (log 10). -/
def execLutRead (c : Byte) (s : State) : Host.Outcome State Fault Refusal :=
  .next { s with lutData := seg c }

end Sys2Proof.Machine
end

