-- ==== Sys2Proof/Machine/Operands.lean ====
section
/-!
DEFINITION. The operand forms of the three host commands (spec/44_command_encoder.md): the clamped
level (R184), the character count (R186), the decimal digits (R192).
-/

namespace Sys2Proof.Machine

/-- `L = min(LEVEL, 8)` (R184). -/
def clampLevel (level : BitVec 4) : BitVec 4 := if level ≤ 8#4 then level else 8#4

/-- The brightness byte `0x87 + L` (R183, R184). -/
def brightnessByte (level : BitVec 4) : Byte := 0x87#8 + (clampLevel level).setWidth 8

/-- `n = min(LEN, 4)` (R186). -/
def charCount (len : Byte) : Nat := min len.toNat Config.nPos

/-- The code of digit character `d`, `0x30 + d` (R192, ASCII: log 6). -/
def digitChar (d : Half) : Byte := 0x30#8 + d.setWidth 8

/-- `DigitChars(v)` (R192): the four decimal digit characters by repeated division by 10, the
most-significant first; unsigned throughout. -/
def digitChars (v : Half) : List Byte :=
  let d3 := v.umod 10#16
  let v1 := v.udiv 10#16
  let d2 := v1.umod 10#16
  let v2 := v1.udiv 10#16
  let d1 := v2.umod 10#16
  let v3 := v2.udiv 10#16
  let d0 := v3.umod 10#16
  [digitChar d0, digitChar d1, digitChar d2, digitChar d3]

end Sys2Proof.Machine
end

