-- ==== Sys2Proof/Machine/Encoder.lean ====
section
/-!
DEFINITION. The command encoder (spec/44_command_encoder.md) and the meanings of the commands and
pseudo-instructions: acceptance at an edge (spec/45_dispatch_fsm.md R212, R213).
-/

namespace Sys2Proof.Machine

/-- The queue of SET_BRIGHTNESS (R180, R182). -/
def brightnessQueue (level : BitVec 4) : Queue := ⟨[brightnessByte level], false⟩

/-- Data byte `i` (R180): the segment pattern, with the separator overlay on byte 1 (R187, R188). -/
def dataByte (sep : Bool) (i : Nat) (c : Byte) : Byte :=
  seg c ||| (if sep = true ∧ i = 1 then 0x80#8 else 0x00#8)

/-- `TextQueue(sep, n, C)` with `n = min(len, 4)` (R180). -/
def textQueue (sep : Bool) (n : Nat) (chars : List Byte) : Queue :=
  ⟨0x40#8 :: 0xC0#8 :: (List.range n).map (fun i => dataByte sep i (chars.getD i 0)), true⟩

/-- The queue of DISPLAY_TEXT (R180, R185). -/
def displayTextQueue (sep : Bool) (len c0 c1 c2 c3 : Byte) : Queue :=
  textQueue sep (charCount len) [c0, c1, c2, c3]

/-- The queue of DISPLAY_NUMBER (R180, R191): the text of its 4 digit characters. -/
def displayNumberQueue (sep : Bool) (value : Half) : Queue :=
  textQueue sep (charCount 4) (digitChars value)

/-- `EncodeQueue(w)` (R180), from the bits of the word; none for `w[1:0] = 3`. -/
def encodeQueue (w : Word) : Option Queue :=
  match (w.extractLsb' 0 2).toNat with
  | 0 => some ⟨[0x87#8 + BitVec.ofNat 8 (min (w.extractLsb' 8 4).toNat 8)], false⟩
  | 1 =>
    some (textQueue (w.getLsbD 2) (min (w.extractLsb' 16 8).toNat 4)
      [w.extractLsb' 32 8, w.extractLsb' 40 8, w.extractLsb' 48 8, w.extractLsb' 56 8])
  | 2 => some (textQueue (w.getLsbD 2) 4 (digitChars (w.extractLsb' 32 16)))
  | _ => none

/-- SET_BRIGHTNESS (R182, R212). -/
def execSetBrightness (level : BitVec 4) (s : State) : Host.Outcome State Fault Refusal :=
  .next (s.acceptQueue (brightnessQueue level))

/-- DISPLAY_TEXT (R185, R212). -/
def execDisplayText (sep : Bool) (len c0 c1 c2 c3 : Byte) (s : State) :
    Host.Outcome State Fault Refusal :=
  .next (s.acceptQueue (displayTextQueue sep len c0 c1 c2 c3))

/-- DISPLAY_NUMBER (R191, R212). -/
def execDisplayNumber (sep : Bool) (value : Half) (s : State) :
    Host.Outcome State Fault Refusal :=
  .next (s.acceptQueue (displayNumberQueue sep value))

/-- RESERVED (R195, R213): the handshake completes and no register changes. -/
def execReserved (s : State) : Host.Outcome State Fault Refusal := .next s

/-- TEXTS (R99): the DISPLAY_TEXT of `min(|s|, 255)` and the first four characters. -/
def execTexts (sep : Bool) (str : List Byte) (s : State) : Host.Outcome State Fault Refusal :=
  .next (s.acceptQueue (displayTextQueue sep (textsLen str) (textsChar str 0) (textsChar str 1)
    (textsChar str 2) (textsChar str 3)))

/-- OFF (R99): `BRIGHT 0`. -/
def execOff (s : State) : Host.Outcome State Fault Refusal :=
  .next (s.acceptQueue (brightnessQueue 0))

end Sys2Proof.Machine
end

