-- ==== Sys2Proof/Machine/Gpio.lean ====
section
/-!
DEFINITION. The GPIO timing controller's instruction (spec/40_gpio_timing.md).
-/

namespace Sys2Proof.Machine

/-- SET_LINE (R101). -/
def execSetLine (line : Line) (level : Bool) (s : State) : Host.Outcome State Fault Refusal :=
  .next (s.setLine line level)

end Sys2Proof.Machine
end

