-- ==== Sys2Proof/Machine/Framer.lean ====
section
/-!
DEFINITION. The transmission framer (spec/41_framer.md): START, STOP, SKIP_ACK as sequences of
`SetLine`, each performed to completion before the next (spec/00_scope.md R22; log 8), and their wire
traces (R120 to R124, R181).
-/

namespace Sys2Proof.Machine

/-! ### The sequences -/

/-- `Start()` (R120). -/
def State.startSeq (s : State) : State :=
  ((s.setLine .clk true).setLine .dat true).setLine .dat false

/-- `Stop()` (R121). -/
def State.stopSeq (s : State) : State :=
  (((s.setLine .clk false).setLine .dat false).setLine .clk true).setLine .dat true

/-- `SkipAck()` (R122): the data line is not touched. -/
def State.skipAckSeq (s : State) : State :=
  ((s.setLine .clk false).setLine .clk true).setLine .clk false

/-- START (R120). -/
def execStart (s : State) : Host.Outcome State Fault Refusal := .next s.startSeq

/-- STOP (R121). -/
def execStop (s : State) : Host.Outcome State Fault Refusal := .next s.stopSeq

/-- SKIP_ACK (R122). -/
def execSkipAck (s : State) : Host.Outcome State Fault Refusal := .next s.skipAckSeq

/-! ### The wire traces -/

/-- `Trace(Start) = [C1, D1, D0]` (R120). -/
def traceStart : List PinOp := [.c1, .d1, .d0]

/-- `Trace(Stop) = [C0, D0, C1, D1]` (R121). -/
def traceStop : List PinOp := [.c0, .d0, .c1, .d1]

/-- `Trace(SkipAck) = [C0, C1, C0]` (R122). -/
def traceSkipAck : List PinOp := [.c0, .c1, .c0]

/-- `Trace(WriteBit(v)) = [C0, (DAT, v), C1]` (R140). -/
def traceWriteBit (v : Bool) : List PinOp := [.c0, ⟨.dat, v⟩, .c1]

/-- `Trace(WriteByte(b))` (R141): bits 0 to 7 in that order. -/
def traceWriteByte (b : Byte) : List PinOp :=
  (List.range 8).flatMap fun i => traceWriteBit (b.getLsbD i)

/-- `Frame(bs)` (R124), for a non-empty byte list (log 20). -/
def frame (bs : List Byte) : List PinOp :=
  traceStart ++ bs.flatMap (fun b => traceWriteByte b ++ traceSkipAck) ++ traceStop

/-- The frames of a queue (R181): with `brk`, byte 0 alone and then the rest. -/
def Queue.frames (c : Queue) : List (List Byte) :=
  if c.brk then [c.bytes.take 1, c.bytes.drop 1] else [c.bytes]

/-- `Expand(Q, brk)` (R181). -/
def Queue.expand (c : Queue) : List PinOp := c.frames.flatMap frame

end Sys2Proof.Machine
end

