-- ==== Sys2Proof/Machine/Serializer.lean ====
section
/-!
DEFINITION. The bit serializer (spec/42_serializer.md): WRITE_BIT and WRITE_BYTE, and the shift
register that R144 calls an equal realisation of the bit index.
-/

namespace Sys2Proof.Machine

/-- `WriteBit(v)` (R140). -/
def State.writeBitSeq (v : Bool) (s : State) : State :=
  ((s.setLine .clk false).setLine .dat v).setLine .clk true

/-- `WriteByte(b)`: `for i in 0 .. 7 : WriteBit(b[i])` (R141). -/
def State.writeByteSeq (b : Byte) (s : State) : State :=
  (List.range 8).foldl (fun s i => s.writeBitSeq (b.getLsbD i)) s

/-- WRITE_BIT (R140). -/
def execWriteBit (v : Bool) (s : State) : Host.Outcome State Fault Refusal :=
  .next (s.writeBitSeq v)

/-- WRITE_BYTE (R141). -/
def execWriteByte (b : Byte) (s : State) : Host.Outcome State Fault Refusal :=
  .next (s.writeByteSeq b)

/-- R144: "A shift-right register whose bit 0 is sent and which shifts by one per bit": the bits it
sends in `n` bit times. -/
def shiftedBits : Nat → Byte → List Bool
  | 0, _ => []
  | n + 1, reg => reg.getLsbD 0 :: shiftedBits n (reg >>> 1)

end Sys2Proof.Machine
end

