-- ==== Sys2Proof/Machine/Wire.lean ====
section
/-!
DEFINITION. The wire bytes as instructions (spec/30_encoding.md R90 to R96): each is transmitted in
the framing that R90 gives it, as the steps of R182 and R185 do (log 9).
-/

namespace Sys2Proof.Machine

/-- A byte and the acknowledgment skip that follows every byte (R124). -/
def State.byteSeq (b : Byte) (s : State) : State := (s.writeByteSeq b).skipAckSeq

/-- A byte "framed alone" (R90): start, byte, skip, stop. -/
def State.framedByteSeq (b : Byte) (s : State) : State := (s.startSeq.byteSeq b).stopSeq

/-- WIRE_BRIGHTNESS_DISABLED (R183): `0x87`, a "single framed write" (R90). -/
def execWireBrightnessDisabled (s : State) : Host.Outcome State Fault Refusal :=
  .next (s.framedByteSeq 0x87#8)

/-- WIRE_BRIGHTNESS_LEVEL (R91): `0x88..0x8F`, a "single framed write" (R90). -/
def execWireBrightnessLevel (x : BitVec 3) (s : State) : Host.Outcome State Fault Refusal :=
  .next (s.framedByteSeq (levelByte x))

/-- WIRE_DATA_MODE (R92): `0x40`, "always sent alone in its own frame". -/
def execWireDataMode (s : State) : Host.Outcome State Fault Refusal :=
  .next (s.framedByteSeq 0x40#8)

/-- WIRE_ADDRESS_0 (R94; R185 step 2): opens the display frame, sends `0xC0`, skips the
acknowledgment, "without closing the frame yet". -/
def execWireAddress0 (s : State) : Host.Outcome State Fault Refusal :=
  .next (s.startSeq.byteSeq 0xC0#8)

/-- WIRE_SEGMENT (R95; R185 step 3): one data byte and its acknowledgment skip. -/
def execWireSegment (pattern : Byte) (s : State) : Host.Outcome State Fault Refusal :=
  .next (s.byteSeq pattern)

end Sys2Proof.Machine
end

