-- ==== Sys2Proof/Machine/Dispatch.lean ====
section
/-! DEFINITION. `exec`: one arm for each constructor of `Instr`. -/

namespace Sys2Proof.Machine

def exec (i : Instr) (s : State) : Host.Outcome State Fault Refusal :=
  match i with
  | .setBrightness level => Sys2Proof.Machine.execSetBrightness level s
  | .displayText sep len c0 c1 c2 c3 => Sys2Proof.Machine.execDisplayText sep len c0 c1 c2 c3 s
  | .displayNumber sep value => Sys2Proof.Machine.execDisplayNumber sep value s
  | .reserved => Sys2Proof.Machine.execReserved s
  | .texts sep str => Sys2Proof.Machine.execTexts sep str s
  | .off => Sys2Proof.Machine.execOff s
  | .setLine line level => Sys2Proof.Machine.execSetLine line level s
  | .start => Sys2Proof.Machine.execStart s
  | .stop => Sys2Proof.Machine.execStop s
  | .skipAck => Sys2Proof.Machine.execSkipAck s
  | .writeBit v => Sys2Proof.Machine.execWriteBit v s
  | .writeByte b => Sys2Proof.Machine.execWriteByte b s
  | .lutRead c => Sys2Proof.Machine.execLutRead c s
  | .wireBrightnessDisabled => Sys2Proof.Machine.execWireBrightnessDisabled s
  | .wireBrightnessLevel x => Sys2Proof.Machine.execWireBrightnessLevel x s
  | .wireDataMode => Sys2Proof.Machine.execWireDataMode s
  | .wireAddress0 => Sys2Proof.Machine.execWireAddress0 s
  | .wireSegment pattern => Sys2Proof.Machine.execWireSegment pattern s

end Sys2Proof.Machine
end

