-- ==== Sys2Proof/Machine/Fsm.lean ====
section
/-!
DEFINITION. The dispatch FSM (spec/45_dispatch_fsm.md): the pin op that `(st, sub, bit, bi)` names
(R215), its successor (R216), and what the block does at one SYSCLK edge, in the priority order of
R218.
-/

namespace Sys2Proof.Machine

/-- The tuple `(st, sub, bit, bi)` (R210). -/
structure FsmPos where
  st : FsmState
  sub : BitVec 2
  bit : BitVec 3
  bi : BitVec 3
deriving DecidableEq, Repr

/-- The tuple `(st, sub, bit, bi)` of a state (R210). -/
def State.pos (s : State) : FsmPos := ⟨s.st, s.sub, s.bit, s.bi⟩

/-- Write the tuple `(st, sub, bit, bi)` (R214). -/
def State.moveTo (p : FsmPos) (s : State) : State :=
  { s with st := p.st, sub := p.sub, bit := p.bit, bi := p.bi }

/-- The states in which a pin op is pending (R210). -/
def FsmState.running : FsmState → Bool
  | .idle => false
  | .start => true
  | .bit => true
  | .ack => true
  | .stop => true
  | .done => false
  | .unused6 => false
  | .unused7 => false

/-- The row of R215 for `st`: the pin ops of its primitive, one a step. -/
def State.opRow (s : State) : List PinOp :=
  match s.st with
  | .start => traceStart
  | .bit => traceWriteBit ((s.q.entry s.bi).getLsbD s.bit.toNat)
  | .ack => traceSkipAck
  | .stop => traceStop
  | .idle => []
  | .done => []
  | .unused6 => []
  | .unused7 => []

/-- `OpAt(st, sub, bit, bi)` (R215): entry `sub` of the row; past the row, a free pin op (log 11). -/
def State.rowOp (s : State) : PinOp :=
  (s.opRow[s.sub.toNat]?).getD (Config.opPastRow s.st.code s.sub s.bit s.bi s.q.toList)

/-- The pending pin op (R210): one in each running state, none elsewhere. -/
def State.opAt (s : State) : Option PinOp := if s.st.running then some s.rowOp else none

/-- `qlen - 1` (R216); free for `qlen = 0` (log 11). -/
def State.lastIndex (s : State) : Int :=
  if s.qlen = 0 then Config.lastOfEmptyQueue else s.qlen.toNat - 1

/-- `j == qlen-1` (R216). -/
def State.lastByte (s : State) : Bool := decide ((s.bi.toNat : Int) = s.lastIndex)

/-- `j < qlen-1` (R216). -/
def State.moreBytes (s : State) : Bool := decide ((s.bi.toNat : Int) < s.lastIndex)

/-- `j+1` (R216); free for `j = 7`, past the three bits of `bi` (log 11). -/
def State.nextIndex (s : State) : BitVec 3 := if s.bi = 7 then Config.byteAfterSeven else s.bi + 1

/-- The `ACK` row's test (R216): the frame closes after byte `j` when it is the last one, or when it
is byte 0 of a queue with a frame break. -/
def State.closesFrame (s : State) : Bool := s.lastByte || (s.brk && decide (s.bi = 0))

/-- `Next(st, sub, bit, bi)` (R216). A state in which no pin op is pending has no successor row; it
stays. -/
def State.nextPos (s : State) : FsmPos :=
  match s.st with
  | .start =>
    if s.sub.toNat < 2 then ⟨.start, s.sub + 1, s.bit, s.bi⟩ else ⟨.bit, 0, 0, s.bi⟩
  | .bit =>
    if s.sub.toNat < 2 then ⟨.bit, s.sub + 1, s.bit, s.bi⟩
    else if s.bit.toNat < 7 then ⟨.bit, 0, s.bit + 1, s.bi⟩
    else ⟨.ack, 0, s.bit, s.bi⟩
  | .ack =>
    if s.sub.toNat < 2 then ⟨.ack, s.sub + 1, s.bit, s.bi⟩
    else if s.closesFrame then ⟨.stop, 0, s.bit, s.bi⟩
    else ⟨.bit, 0, 0, s.nextIndex⟩
  | .stop =>
    if s.sub.toNat < 3 then ⟨.stop, s.sub + 1, s.bit, s.bi⟩
    else if s.moreBytes then ⟨.start, 0, s.bit, s.nextIndex⟩
    else ⟨.done, 0, s.bit, s.bi⟩
  | _ => s.pos

/-- What the block does at one SYSCLK edge: the cases of R218. -/
inductive EdgeAction where
  /-- Case 1: reset (R260). -/
  | reset
  /-- Case 2: the offered word is accepted (R211): its instruction is executed. -/
  | accept (i : Instr)
  /-- Case 3: idle, no change. -/
  | hold
  /-- Case 4: `dly <- dly - 1` (R102). -/
  | count
  /-- Case 5: the pending pin op, and the tuple it moves to (R214). -/
  | perform (op : PinOp) (after : FsmPos)
  /-- Case 6: the command ends (R217). -/
  | finish
  /-- Case 7: an unused encoding of `st` recovers (R223). -/
  | recover
deriving DecidableEq, Repr

/-- The case at a running edge (R102, R214). -/
def State.runningAction (s : State) : EdgeAction :=
  if s.dly ≠ 0 then .count else .perform s.rowOp s.nextPos

/-- The case of R218 that applies with input ports `p`: the first in priority order. -/
def State.action (p : PortIn) (s : State) : EdgeAction :=
  if p.rst then .reset
  else
    match s.st with
    | .idle => if p.cmdValid then .accept (decodeCommand p.cmdWord) else .hold
    | .start => s.runningAction
    | .bit => s.runningAction
    | .ack => s.runningAction
    | .stop => s.runningAction
    | .done => if s.dly ≠ 0 then .count else .finish
    | .unused6 => .recover
    | .unused7 => .recover

/-- `st <- IDLE` (R217, R223). -/
def State.toIdle (s : State) : State := { s with st := .idle }

end Sys2Proof.Machine
end

