-- ==== Sys2Proof/Machine/Step.lean ====
section
/-!
DEFINITION. The step: one SYSCLK rising edge (spec/45_dispatch_fsm.md R218; log 1). The edge takes the
next input ports, and does what `State.action` names; an accepted command and a pin op are executed by
`exec`.
-/

namespace Sys2Proof.Machine

/-- What the edge does, on the state whose input has been taken. -/
def perform (a : EdgeAction) (s : State) : Host.Outcome State Fault Refusal :=
  match a with
  | .reset => .next s.resetEdge
  | .accept i => exec i s
  | .hold => .next s
  | .count => .next s.countDown
  | .perform op after =>
    match exec (.setLine op.line op.level) s with
    | .next t => .next (t.moveTo after)
    | .fault r => .fault r
    | .refused r => .refused r
  | .finish => .next s.toIdle
  | .recover => .next s.toIdle

/-- One SYSCLK rising edge (R218). -/
def step (s : State) : Host.Outcome State Fault Refusal :=
  perform (s.action s.portIn) s.takeInput

/-- Place a table row's bits where the next step takes them (log 3): a command word on the command
port of an idle block, a byte that opens a frame at the head of the byte queue. -/
def State.withFetchWord (s : State) (nbits w : Nat) : State :=
  match codeOfTableWord nbits w with
  | some (.command word) => s.offerWord word
  | some (.wire _ b) => s.queueWireByte b
  | none => s

end Sys2Proof.Machine
end

