-- ==== Sys2Proof/Machine/Flags.lean ====
section
/-!
DEFINITION. The block has no flags and no condition codes (spec/10_state.md R32); what stands here is
its only status and its outputs, each a function of the current registers (R40, R41; R219).
-/

namespace Sys2Proof.Machine

/-- `CMD_READY = (st == IDLE)` (R41). -/
def State.cmdReady (s : State) : Bool := decide (s.st = .idle)

/-- `CLK_O = clk_o` (R40). -/
def State.clkOut (s : State) : Bool := s.clkO

/-- `DAT_O = dat_o` (R40). -/
def State.datOut (s : State) : Bool := s.datO

/-- What the block drives on a pin of the platform (R42, R46): its drive intent on its two pins,
nothing on any other. -/
def State.drives (s : State) (p : Config.Pin) : Option Bool :=
  if p = Config.clkPin then some s.clkOut
  else if p = Config.datPin then some s.datOut
  else none

end Sys2Proof.Machine
end

