-- ==== Sys2Proof/Machine/Receiver.lean ====
section
/-!
DEFINITION. The reference receiver of spec/41_framer.md R127: what a wire trace means, used to state
claims about traces. It is no part of the block and describes no controller (D28).
-/

namespace Sys2Proof.Machine

/-- The variables of `Decode(W)` (R127). Before the first start no value of `edges` and `byte` is read
(log 18). -/
structure Receiver where
  c : Bool
  d : Bool
  frames : List (List Byte)
  cur : Option (List Byte)
  edges : Nat
  byte : Byte
deriving DecidableEq, Repr

/-- "track levels c, d starting at 1, 1; frames <- []; cur <- none" (R127). -/
def Receiver.init : Receiver := ⟨true, true, [], none, 0, 0⟩

/-- `byte[k] <- d` (R127). -/
def setBit (b : Byte) (k : Nat) (d : Bool) : Byte :=
  if d then b ||| 1#8 <<< k else b &&& ~~~(1#8 <<< k)

/-- The rising clock edge of R127 inside a frame: eight bits, least significant first, then the
acknowledgment slot, which appends the byte and is not sampled. -/
def Receiver.risingEdge (r : Receiver) (bytes : List Byte) : Receiver :=
  let edges := r.edges + 1
  let byte := if edges % 9 = 1 then 0#8 else r.byte
  if edges % 9 = 0 then { r with edges := edges, byte := byte, cur := some (bytes ++ [byte]) }
  else { r with edges := edges, byte := setBit byte (edges % 9 - 1) r.d }

/-- One pin op of `Decode(W)` (R127). -/
def Receiver.pin (op : PinOp) (r : Receiver) : Receiver :=
  let c := if op.line = .clk then op.level else r.c
  let d := if op.line = .dat then op.level else r.d
  let r' := { r with c := c, d := d }
  if op = .d0 ∧ r.d = true ∧ c = true then { r' with cur := some [], edges := 0 }
  else if op = .d1 ∧ r.d = false ∧ c = true then
    { r' with frames := r.frames ++ r.cur.toList, cur := none }
  else if op = .c1 ∧ r.c = false then
    match r.cur with
    | some bytes => r'.risingEdge bytes
    | none => r'
  else r'

/-- One element of `W`. A marker begins a new segment: the lines are released and an open frame is
given up (log 18). -/
def Receiver.obs (o : Obs) (r : Receiver) : Receiver :=
  match o with
  | .pin op => r.pin op
  | .rst => { r with c := true, d := true, cur := none }

/-- The receiver after a trace. -/
def Receiver.run (w : List Obs) (r : Receiver) : Receiver := w.foldl (fun r o => r.obs o) r

/-- `Decode(W)` (R127): the frames of a trace, each a list of bytes. -/
def decodeTrace (w : List Obs) : List (List Byte) := (Receiver.init.run w).frames

end Sys2Proof.Machine
end

