-- ==== Sys2Proof/Machine/Transaction.lean ====
section
/-!
DEFINITION. The transaction-level step of spec/45_dispatch_fsm.md R224, for claims that abstract from
time. The machine's own step is the edge (log 1); R221 says the two agree.
-/

namespace Sys2Proof.Machine

/-- The transaction-level state between commands (R224); `busy` is `false` there. -/
structure TxState where
  clkO : Bool
  datO : Bool
  w : List Obs
deriving DecidableEq, Repr

/-- What the transaction level sees of a state. -/
def State.tx (s : State) : TxState := ⟨s.clkO, s.datO, s.w⟩

/-- `AcceptTx(w)` (R224): no change for a reserved word; else the whole trace of the command, and the
lines as the last stop leaves them. -/
def acceptTx (word : Word) (t : TxState) : TxState :=
  match encodeQueue word with
  | none => t
  | some c => ⟨true, true, t.w ++ c.expand.map .pin⟩

end Sys2Proof.Machine
end

