-- ==== Sys2Proof/Safety.lean ====
section
/-!
DEFINITION. The terms claims are made in: runs of edges without reset, sequences of instructions, what
a wire trace leaves the lines at, and the invariant of the states that are reached from reset.
-/

namespace Sys2Proof.Machine

/-! ### Runs -/

/-- `n` edges from `s` lead to `t`, with no stop on the way. -/
def runsTo (n : Nat) (s t : State) : Prop := Host.Core.run Sys2Proof.core n s = .next t

/-- `RST` stays 0 at the next `n` edges. -/
def noReset (n : Nat) (s : State) : Prop := ∀ p ∈ s.inputs.take n, p.rst = false

/-- The host offers `word` at the next edge and does not assert `RST` there. -/
def State.offers (word : Word) (s : State) : Prop :=
  s.portIn.rst = false ∧ s.portIn.cmdValid = true ∧ s.portIn.cmdWord = word

/-- Instructions executed one after the other, each to completion (R22). -/
def execAll : List Instr → State → Host.Outcome State Fault Refusal
  | [], s => .next s
  | i :: is, s =>
    match exec i s with
    | .next t => execAll is t
    | .fault r => .fault r
    | .refused r => .refused r

/-! ### What a wire trace says of the lines -/

/-- The levels of (clock, data) after one element of the trace (R101, R260). -/
def Obs.levels (o : Obs) (l : Bool × Bool) : Bool × Bool :=
  match o with
  | .pin ⟨.clk, v⟩ => (v, l.2)
  | .pin ⟨.dat, v⟩ => (l.1, v)
  | .rst => (true, true)

/-- The levels after a trace that began with both lines released. -/
def lineLevels (w : List Obs) : Bool × Bool := w.foldl (fun l o => o.levels l) (true, true)

/-- How often the data line changes level while the clock line is high (R126), from levels `l`. -/
def highDataEdges : List PinOp → Bool × Bool → Nat
  | [], _ => 0
  | op :: ops, l =>
    (if op.line = .dat ∧ op.level ≠ l.2 ∧ l.1 = true then 1 else 0)
      + highDataEdges ops ((Obs.pin op).levels l)

/-! ### The invariant -/

/-- The last step index of a primitive: "`sub` ranges over 0..2 in `START`, `BIT` and `ACK` and over
0..3 in `STOP`" (R215). -/
def FsmState.lastSub : FsmState → Nat
  | .stop => 3
  | _ => 2

/-- The ranges the spec states for the registers while a command runs: `qlen` 1 to 6 (R35), `bi` 0 to 5
(R36), `sub` a step of its primitive (R215). -/
def State.fsmInRange (s : State) : Bool :=
  decide (1 ≤ s.qlen.toNat) && decide (s.qlen.toNat ≤ 6) && decide (s.bi.toNat ≤ 5)
    && decide (s.sub.toNat ≤ s.st.lastSub)

/-- `Q[j]` (R35). -/
def State.byteAt (s : State) (j : BitVec 3) : Byte := s.q.entry j

/-- Byte `bi` is the first of its frame (R181). -/
def State.opensFrame (s : State) : Bool := decide (s.bi = 0) || (s.brk && decide (s.bi = 1))

/-- The clock level before the pending pin op (R125). -/
def State.clkBefore (s : State) : Bool :=
  match s.st with
  | .bit => decide (s.sub = 0) && (decide (s.bit ≠ 0) || s.opensFrame)
  | .ack => decide (s.sub ≠ 1)
  | .stop => decide (s.sub = 3)
  | _ => true

/-- The data level before the pending pin op (R125, R128): the last bit sent, low after a start and
after the second pin op of a stop, released between frames. -/
def State.datBefore (s : State) : Bool :=
  match s.st with
  | .bit =>
    if s.sub = 2 then (s.byteAt s.bi).getLsbD s.bit.toNat
    else if s.bit ≠ 0 then (s.byteAt s.bi).getLsbD (s.bit.toNat - 1)
    else if s.opensFrame then false
    else (s.byteAt (s.bi - 1)).getLsbD 7
  | .ack => (s.byteAt s.bi).getLsbD 7
  | .stop => if s.sub.toNat ≤ 1 then (s.byteAt s.bi).getLsbD 7 else false
  | _ => true

/-- A byte of SET_BRIGHTNESS, `0x87..0x8F` (R91). -/
def isBrightnessByte (b : Byte) : Bool := decide (0x87#8 ≤ b) && decide (b ≤ 0x8F#8)

/-- The queues the encoder builds (R96, R180, R188): one brightness byte, or `0x40`, `0xC0` and 0 to 4
data bytes of which only byte 1 can have bit 7 set. -/
def State.queueLegal (s : State) : Bool :=
  if s.brk then
    decide (2 ≤ s.qlen.toNat) && decide (s.qlen.toNat ≤ 6) && decide (s.q.q0 = 0x40#8) && decide (s.q.q1 = 0xC0#8)
      && !s.q.q2.getLsbD 7 && !s.q.q4.getLsbD 7 && !s.q.q5.getLsbD 7
  else decide (s.qlen = 1) && isBrightnessByte s.q.q0

/-- What holds of every state reached from reset. -/
structure State.Inv (s : State) : Prop where
  /-- `dly` holds 0 to `SETTLE_CYCLES - 1` (R39). -/
  dlyBound : s.dly.toNat < Config.settleCycles
  /-- `dly` is 0 in `IDLE` (R107). -/
  idleDly : s.st = .idle → s.dly = 0
  /-- The unused encodings of `st` are not reached (R223). -/
  stLegal : s.st ≠ .unused6 ∧ s.st ≠ .unused7
  /-- While a command runs, the FSM registers are in their ranges (R35, R36, R215). -/
  inRange : s.st.running = true → s.fsmInRange = true
  /-- While a command runs, `bi` is the index of one of its `qlen` bytes (R36, R216). -/
  entry : s.st.running = true → s.bi.toNat < s.qlen.toNat
  /-- While a command runs, the queue is one the encoder built (R96). -/
  queue : s.st ≠ .idle → s.queueLegal = true
  /-- A start opens the frame of byte `bi`: a frame begins at byte 0 and, after a break, at byte 1
  (R181). -/
  opens : s.st = .start → s.opensFrame = true
  /-- A stop closes a frame after its last byte (R181, R216). -/
  closes : s.st = .stop → s.closesFrame = true
  /-- The clock line is where the FSM position says (R125, R251). -/
  clkLevel : s.clkO = s.clkBefore
  /-- The data line is where the FSM position says (R125, R128, R251). -/
  datLevel : s.datO = s.datBefore
  /-- The lines are where `W` leaves them: only pin ops and resets move them (R40, R44). -/
  trace : lineLevels s.w = (s.clkO, s.datO)
  /-- No two reset markers are adjacent in `W` (R44). -/
  markers : s.w.IsChain (fun a b => a = .rst → b ≠ .rst)

end Sys2Proof.Machine
end

