-- ==== Sys2Proof/Certificates/Slice0/Obligations.lean ====
section
/-!
DEFINITION. The statements for the provers, from the numbered rules of spec/. Each docstring names the
rule it formalises; a docstring that says "derived" names what the spec marks as its own inference, or
the log entry of the model's own choice.
-/

open Sys2Proof Sys2Proof.Machine

/-! ### Parameters and the character table -/

/-- R14: `SETTLE_CYCLES` is an integer at least 1 and at least `ceil(T_SETTLE × F_CLK)`, with
`T_SETTLE` = 2 µs (R13) and `F_CLK` a positive real number of hertz. -/
def Obligations.SettleCyclesCoverTheSettleInterval : Prop :=
  0 < Config.fClk ∧ 1 ≤ Config.settleCycles ∧
    ⌈(2 / 1000000 : ℝ) * Config.fClk⌉₊ ≤ Config.settleCycles

/-- Derived (log 4): no legal configuration is left out, and no illegal one is let in. A positive real
clock `f` and a settle length are legal exactly when they have the form of the model's free values. -/
def Obligations.LegalConfigurationsAreTheRepresentedOnes : Prop :=
  ∀ (f : ℝ) (cycles : Nat), 0 < f →
    ((1 ≤ cycles ∧ ⌈(2 / 1000000 : ℝ) * f⌉₊ ≤ cycles) ↔
      ∃ pred slack, cycles = pred + 1 ∧ f = Config.clock (pred + 1) slack)

/-- Derived (00_scope.md section 3): `minSettle` is `ceil(T_SETTLE × F_CLK)` for a clock of `num / den`
hertz. -/
def Obligations.LeastSettleLength : Prop :=
  ∀ num den : Nat, 0 < den →
    Config.minSettle num den = ⌈(2 / 1000000 : ℝ) * ((num : ℝ) / (den : ℝ))⌉₊

/-- Derived (10_state.md section 3): `DLY_W = max(1, ceil(log2(SETTLE_CYCLES)))`, and
`SETTLE_CYCLES - 1` fits in `DLY_W` bits. The counter of the machine has that width for its own settle
length, and a pin op loads it with `SETTLE_CYCLES - 1`, no bit cut off. -/
def Obligations.DelayCounterWidthHoldsItsLoad : Prop :=
  (∀ cycles : Nat, 1 ≤ cycles →
      Config.dlyWidth cycles = max 1 (Nat.clog 2 cycles) ∧ cycles - 1 < 2 ^ Config.dlyWidth cycles) ∧
    Config.dlyW = max 1 (Nat.clog 2 Config.settleCycles) ∧
    ∀ (line : Line) (v : Bool) (s : State),
      ∃ t, exec (.setLine line v) s = .next t ∧ t.dly.toNat = Config.settleCycles - 1

/-- R161: `Seg(c) = CHAR_LUT[c & 0x7F]`, so `Seg(c) = Seg(c & 0x7F)` for every 8-bit `c`. -/
def Obligations.SegmentLookupMasksItsIndex : Prop :=
  ∀ c : Byte,
    seg c = Config.charLut (BitVec.ofNat 7 (c &&& 0x7F#8).toNat) ∧ seg c = seg (c &&& 0x7F#8)

/-- Derived (43_char_lut.md, the pinned entries; that the codes of the characters are ASCII is log 6): the
entries of '0', '2', '4' and 'A'. -/
def Obligations.PinnedTableEntries : Prop :=
  Config.charLut 0x30#7 = 0x3F#8 ∧ Config.charLut 0x34#7 = 0x66#8 ∧ Config.charLut 0x32#7 = 0x5B#8 ∧
    Config.charLut 0x41#7 = 0x77#8

/-- Derived (43_char_lut.md, the entry of 'B', which the spec infers from the scenario and bit 7): the
entry of 'B' is `0x7C`, and with the separator it is the scenario's `0xFC`. -/
def Obligations.TableEntryOfB : Prop :=
  Config.charLut 0x42#7 = 0x7C#8 ∧ Config.charLut 0x42#7 ||| 0x80#8 = 0xFC#8

/-- R166: bit 7 of every entry is 0. -/
def Obligations.NoTableEntrySetsTheSeparator : Prop :=
  ∀ i : BitVec 7, Config.charLut i &&& 0x80#8 = 0#8

/-- Derived (43_char_lut.md section LUT_READ and log 10: where the value stands is the model's choice):
LUT_READ completes in every state, answers the entry of the masked code and changes nothing else. -/
def Obligations.LutReadAnswersTheEntry : Prop :=
  ∀ (c : Byte) (s : State),
    exec (.lutRead c) s =
      .next { s with lutData := Config.charLut (BitVec.ofNat 7 (c.toNat % 128)) }

/-! ### Lines and primitives -/

/-- R101: SET_LINE completes in every state; it writes the one line, appends the pin op to `W`, loads
`dly` with `SETTLE_CYCLES - 1`, and changes nothing else. -/
def Obligations.SetLineIsOnePinOp : Prop :=
  ∀ (line : Line) (v : Bool) (s : State),
    exec (.setLine line v) s =
      .next { s with
        clkO := if line = .clk then v else s.clkO
        datO := if line = .clk then s.datO else v
        w := s.w ++ [.pin ⟨line, v⟩]
        dly := BitVec.ofNat Config.dlyW (Config.settleCycles - 1) }

/-- Derived (41_framer.md section 1; that the whole of START is one execution, with the last settle
interval left running and the FSM registers unchanged, is log 8): START performs `C1 D1 D0`; post-state
`clk_o = 1`, `dat_o = 0`; nothing else changes but the settle interval of its last pin op. -/
def Obligations.StartSequence : Prop :=
  ∀ s : State,
    exec .start s =
      .next { s with
        clkO := true
        datO := false
        w := s.w ++ [.pin .c1, .pin .d1, .pin .d0]
        dly := BitVec.ofNat Config.dlyW (Config.settleCycles - 1) }

/-- Derived (41_framer.md section 1; that the whole of STOP is one execution, with the last settle
interval left running and the FSM registers unchanged, is log 8): STOP performs `C0 D0 C1 D1`; post-state
`clk_o = 1`, `dat_o = 1`. -/
def Obligations.StopSequence : Prop :=
  ∀ s : State,
    exec .stop s =
      .next { s with
        clkO := true
        datO := true
        w := s.w ++ [.pin .c0, .pin .d0, .pin .c1, .pin .d1]
        dly := BitVec.ofNat Config.dlyW (Config.settleCycles - 1) }

/-- Derived (41_framer.md section 1; that the whole of SKIP_ACK is one execution, with the last settle
interval left running and the FSM registers unchanged, is log 8): SKIP_ACK performs `C0 C1 C0`; post-state
`clk_o = 0`, `dat_o` unchanged. -/
def Obligations.SkipAckSequence : Prop :=
  ∀ s : State,
    exec .skipAck s =
      .next { s with
        clkO := false
        w := s.w ++ [.pin .c0, .pin .c1, .pin .c0]
        dly := BitVec.ofNat Config.dlyW (Config.settleCycles - 1) }

/-- Derived (42_serializer.md; that the whole of WRITE_BIT is one execution, with the last settle interval
left running and the FSM registers unchanged, is log 8): WRITE_BIT performs `C0`, the data pin op, `C1`;
post-state `clk_o = 1`, `dat_o = v`. -/
def Obligations.WriteBitSequence : Prop :=
  ∀ (v : Bool) (s : State),
    exec (.writeBit v) s =
      .next { s with
        clkO := true
        datO := v
        w := s.w ++ [.pin .c0, .pin ⟨.dat, v⟩, .pin .c1]
        dly := BitVec.ofNat Config.dlyW (Config.settleCycles - 1) }

/-- Derived (42_serializer.md; that the whole of WRITE_BYTE is one execution, with the last settle
interval left running and the FSM registers unchanged, is log 8): WRITE_BYTE emits bits 0 to 7 in that
order, three pin ops each; post-state `clk_o = 1`, `dat_o = b[7]`. -/
def Obligations.WriteByteSequence : Prop :=
  ∀ (b : Byte) (s : State),
    exec (.writeByte b) s =
      .next { s with
        clkO := true
        datO := b.getLsbD 7
        w := s.w ++ [0, 1, 2, 3, 4, 5, 6, 7].flatMap (fun i : Nat =>
          [Obs.pin .c0, .pin ⟨.dat, b.getLsbD i⟩, .pin .c1])
        dly := BitVec.ofNat Config.dlyW (Config.settleCycles - 1) }

/-- Derived (42_serializer.md, the FSM realisation, an inference the spec marks; WRITE_BYTE as one execution
is log 8): WRITE_BYTE appends, for each bit that a shift-right register loaded with the byte sends from its
bit 0, the pin ops `C0`, that bit, `C1`; so the data levels of the byte's trace are that register's. -/
def Obligations.ShiftRegisterSendsTheSameBits : Prop :=
  ∀ b : Byte,
    (traceWriteByte b).filterMap (fun op => if op.line = .dat then some op.level else none) =
        shiftedBits 8 b ∧
      shiftedBits 8 b = (List.range 8).map (fun i => b.getLsbD i) ∧
      ∀ s : State, ∃ t, exec (.writeByte b) s = .next t ∧
        t.w = s.w ++ (shiftedBits 8 b).flatMap (fun v => [Obs.pin .c0, .pin ⟨.dat, v⟩, .pin .c1])

/-- Derived (30_encoding.md section 2; the model's own are the framing of a wire byte as one instruction,
log 9, and that all its pin ops are one execution, with the last settle interval left running and the
registers of the FSM and of the queue unchanged, log 8): each wire byte completes in every state. A byte
framed alone leaves the lines released; `0xC0` leaves its frame open; a segment byte is one byte and its
acknowledgment skip. -/
def Obligations.WireBytesAreTransmitted : Prop :=
  ∀ (s : State) (x : BitVec 3) (p : Byte),
    let framed := fun b : Byte =>
      { s with
        clkO := true, datO := true
        w := s.w ++ (frame [b]).map .pin
        dly := BitVec.ofNat Config.dlyW (Config.settleCycles - 1) }
    exec .wireBrightnessDisabled s = .next (framed 0x87#8) ∧
    exec (.wireBrightnessLevel x) s = .next (framed (BitVec.ofNat 8 (0x88 + x.toNat))) ∧
    exec .wireDataMode s = .next (framed 0x40#8) ∧
    exec .wireAddress0 s =
      .next { s with
        clkO := false, datO := true
        w := s.w ++ (traceStart ++ traceWriteByte 0xC0#8 ++ traceSkipAck).map .pin
        dly := BitVec.ofNat Config.dlyW (Config.settleCycles - 1) } ∧
    exec (.wireSegment p) s =
      .next { s with
        clkO := false, datO := p.getLsbD 7
        w := s.w ++ (traceWriteByte p ++ traceSkipAck).map .pin
        dly := BitVec.ofNat Config.dlyW (Config.settleCycles - 1) }

/-! ### Encodings -/

/-- Derived (30_encoding.md sections 1 and 2, with the pseudo-instructions' expansions of section 4):
for every well-formed instruction with an encoding, decoding its code gives its core instruction back,
with every operand; the internal primitives alone have no encoding. -/
def Obligations.DecodeOfEncodeIsTheInstruction : Prop :=
  ∀ i : Instr, i.wellFormed = true →
    (i.isPrimitive = true ∧ encode i = none) ∨
      (i.isPrimitive = false ∧ ∃ c, encode i = some c ∧ decode c = .ok i.core)

/-- R89: the word of each command, as the sum of its zero-extended operands in their lanes and `OP`. -/
def Obligations.CommandWordsAreTheSumsOfTheirFields : Prop :=
  (∀ level : BitVec 4, ∃ w : Word, encode (.setBrightness level) = some (.command w) ∧
      w.toNat = level.toNat * 2 ^ 8 + 0) ∧
    (∀ (sep : Bool) (len c0 c1 c2 c3 : Byte), ∃ w : Word,
      encode (.displayText sep len c0 c1 c2 c3) = some (.command w) ∧
      w.toNat = c3.toNat * 2 ^ 56 + c2.toNat * 2 ^ 48 + c1.toNat * 2 ^ 40 + c0.toNat * 2 ^ 32
        + len.toNat * 2 ^ 16 + sep.toNat * 2 ^ 2 + 1) ∧
    (∀ (sep : Bool) (value : Half), ∃ w : Word,
      encode (.displayNumber sep value) = some (.command w) ∧
      w.toNat = value.toNat * 2 ^ 32 + sep.toNat * 2 ^ 2 + 2) ∧
    ∃ w : Word, encode .reserved = some (.command w) ∧ w.toNat = 3

/-- Derived (30_encoding.md section 1: the fields of a word and their assembly): assembling a decoded
word gives the word back but for the bits its command has no field for. -/
def Obligations.EncodeOfDecodeKeepsTheFields : Prop :=
  ∀ w : Word,
    encode (decodeCommand w) = some (.command (w &&&
      (if fieldOp w = 0#2 then 0xF03#64
      else if fieldOp w = 1#2 then 0xFFFFFFFF00FF0007#64
      else if fieldOp w = 2#2 then 0xFFFF00000007#64
      else 0x3#64)))

/-- Derived (30_encoding.md section 4, the examples the spec derives, and section 2): words and wire
bytes written out from the encodings decode to the instructions they stand for. -/
def Obligations.WordsOfTheSpecDecode : Prop :=
  decodeCommand 0x0000000000000300#64 = .setBrightness 3 ∧
  decodeCommand 0x0000424100020005#64 = .displayText true 2 0x41 0x42 0 0 ∧
  decodeCommand 0x0000002A00000002#64 = .displayNumber false 42 ∧
  decodeCommand 0x0000000000000003#64 = .reserved ∧
  decodeWire .first 0x87#8 = .ok .wireBrightnessDisabled ∧
  decodeWire .first 0x8F#8 = .ok (.wireBrightnessLevel 7) ∧
  decodeWire .first 0x40#8 = .ok .wireDataMode ∧
  decodeWire .first 0xC0#8 = .ok .wireAddress0 ∧
  decodeWire .data 0x40#8 = .ok (.wireSegment 0x40)

/-- Derived (30_encoding.md section 2, the bytes the block transmits at each position; that the decoder
rejects by name a first byte the block never sends is the model's choice, log 16): a byte opens a frame
exactly when it is `0x87..0x8F`, `0x40` or `0xC0`; any other is rejected there, and every byte is a
segment byte in a data position. -/
def Obligations.FirstBytesOfFrames : Prop :=
  ∀ b : Byte,
    ((∃ i, decodeWire .first b = .ok i) ↔
      (0x87#8 ≤ b ∧ b ≤ 0x8F#8) ∨ b = 0x40#8 ∨ b = 0xC0#8) ∧
    ((¬∃ i, decodeWire .first b = .ok i) → decodeWire .first b = .error (.notAFirstByte b)) ∧
    decodeWire .data b = .ok (.wireSegment b)

/-- R88: a command reads only its fields: two words with the same `OP` that agree on the fields their
command reads have the same effect in every state. -/
def Obligations.CommandsReadOnlyTheirFields : Prop :=
  ∀ (w w' : Word) (s : State),
    fieldOp w = fieldOp w' →
    (fieldOp w = 0#2 → fieldLevel w = fieldLevel w') →
    (fieldOp w = 1#2 → fieldSep w = fieldSep w' ∧ fieldLen w = fieldLen w' ∧
      ∀ i, i < min (fieldLen w).toNat 4 → fieldChar w i = fieldChar w' i) →
    (fieldOp w = 2#2 → fieldSep w = fieldSep w' ∧ fieldValue w = fieldValue w') →
    exec (decodeCommand w) s = exec (decodeCommand w') s

/-! ### Commands -/

/-- R183, R184 at acceptance (R212): in `IDLE`, SET_BRIGHTNESS completes with the queue of the one
byte `0x87 + min(LEVEL, 8)` and the FSM at its first pin op; no line, no pin op, nothing else
changes. -/
def Obligations.SetBrightnessIsAccepted : Prop :=
  ∀ (level : BitVec 4) (s : State), s.st = .idle →
    exec (.setBrightness level) s =
      .next { s with
        q := ⟨BitVec.ofNat 8 (0x87 + min level.toNat 8), 0, 0, 0, 0, 0⟩
        qlen := 1, brk := false
        st := .start, sub := 0, bit := 0, bi := 0, dly := 0 }

/-- R186 to R188 at acceptance (R212): in `IDLE`, DISPLAY_TEXT completes with the queue `0x40`, `0xC0`
and the segment bytes of its first `min(LEN, 4)` characters, byte 1 with the separator overlay, a frame
break after byte 0, and the FSM at its first pin op; nothing else changes. -/
def Obligations.DisplayTextIsAccepted : Prop :=
  ∀ (sep : Bool) (len c0 c1 c2 c3 : Byte) (s : State), s.st = .idle →
    exec (.displayText sep len c0 c1 c2 c3) s =
      .next { s with
        q := ⟨0x40, 0xC0,
          if 0 < len.toNat then seg c0 else 0,
          if 1 < len.toNat then (if sep then seg c1 ||| 0x80#8 else seg c1) else 0,
          if 2 < len.toNat then seg c2 else 0,
          if 3 < len.toNat then seg c3 else 0⟩
        qlen := BitVec.ofNat 3 (2 + min len.toNat 4), brk := true
        st := .start, sub := 0, bit := 0, bi := 0, dly := 0 }

/-- Derived (44_command_encoder.md section 4 and 45_dispatch_fsm.md section 1; the digit codes are log 6):
in `IDLE`, DISPLAY_NUMBER completes with the queue `0x40`, `0xC0` and the
segment bytes of the thousands, hundreds (with the separator overlay), tens and units digits. -/
def Obligations.DisplayNumberIsAccepted : Prop :=
  ∀ (sep : Bool) (value : Half) (s : State), s.st = .idle →
    let digit := fun k : Nat => seg (BitVec.ofNat 8 (0x30 + value.toNat / 10 ^ k % 10))
    exec (.displayNumber sep value) s =
      .next { s with
        q := ⟨0x40, 0xC0, digit 3, if sep then digit 2 ||| 0x80#8 else digit 2, digit 1, digit 0⟩
        qlen := 6, brk := true
        st := .start, sub := 0, bit := 0, bi := 0, dly := 0 }

/-- R213, R195: RESERVED completes and changes nothing, in any state; the edge that accepts it leaves the
block in `IDLE` with `CMD_READY = 1` and only the input used up. -/
def Obligations.ReservedChangesNothing : Prop :=
  (∀ s : State, exec .reserved s = .next s) ∧
    ∀ (s : State) (word : Word), s.st = .idle → s.offers word → word.extractLsb' 0 2 = 3#2 →
      step s = .next { s with inputs := s.inputs.tail } ∧
        ({ s with inputs := s.inputs.tail } : State).cmdReady = true

/-- R99: TEXTS is the TEXT of `min(|s|, 255)` and the first four characters, 0 where the string is
shorter; OFF is `BRIGHT 0`. In `IDLE` both complete with that queue. -/
def Obligations.PseudoInstructionsExpand : Prop :=
  (∀ (sep : Bool) (str : List Byte) (s : State), s.st = .idle →
    exec (.texts sep str) s =
        exec (.displayText sep (BitVec.ofNat 8 (min str.length 255)) (str.getD 0 0) (str.getD 1 0)
          (str.getD 2 0) (str.getD 3 0)) s ∧
      ∃ t, exec (.texts sep str) s = .next t ∧ t.st = .start ∧
        t.qlen = BitVec.ofNat 3 (2 + min str.length 4) ∧ t.w = s.w) ∧
  ∀ s : State, s.st = .idle →
    exec .off s = exec (.setBrightness 0) s ∧
      exec .off s =
        .next { s with
          q := ⟨0x87, 0, 0, 0, 0, 0⟩
          qlen := 1, brk := false
          st := .start, sub := 0, bit := 0, bi := 0, dly := 0 }

/-- Derived (45_dispatch_fsm.md section 1 and log 14: what a command executed off `IDLE` does is the
model's reading of "not accepted and leaves no trace"): it leaves the state as it is. -/
def Obligations.CommandOffIdleLeavesNoTrace : Prop :=
  ∀ (i : Instr) (s : State), s.st ≠ .idle →
    ((∃ w, i = decodeCommand w) ∨ i = .off ∨ ∃ sep str, i = .texts sep str) →
    exec i s = .next s

/-- R212, R213: executing the command of a word with `w[1:0] != 3` in `IDLE` loads the queue `EncodeQueue`
gives for its bits, 0 in the entries past it, and goes to the first pin op; a word with `w[1:0] = 3`
has no queue and changes nothing. -/
def Obligations.AcceptanceLoadsTheEncodedQueue : Prop :=
  (∀ word : Word, encodeQueue word = none ↔ word.extractLsb' 0 2 = 3#2) ∧
    ∀ (word : Word) (s : State), s.st = .idle →
      exec (decodeCommand word) s =
        match encodeQueue word with
        | some c =>
          .next { s with
            q := ⟨c.bytes.getD 0 0, c.bytes.getD 1 0, c.bytes.getD 2 0, c.bytes.getD 3 0,
              c.bytes.getD 4 0, c.bytes.getD 5 0⟩
            qlen := BitVec.ofNat 3 c.bytes.length, brk := c.brk
            st := .start, sub := 0, bit := 0, bi := 0, dly := 0 }
        | none => .next s

/-- Derived (44_command_encoder.md section 4; the digit codes are log 6): the four characters are
the decimal digits of the value, the most significant first. -/
def Obligations.DigitCharactersSpellTheValue : Prop :=
  ∀ v : Half, ∃ d0 d1 d2 d3 : Nat,
    d0 ≤ 9 ∧ d1 ≤ 9 ∧ d2 ≤ 9 ∧ d3 ≤ 9 ∧
    digitChars v =
      [BitVec.ofNat 8 (0x30 + d0), BitVec.ofNat 8 (0x30 + d1), BitVec.ofNat 8 (0x30 + d2),
        BitVec.ofNat 8 (0x30 + d3)] ∧
    1000 * d0 + 100 * d1 + 10 * d2 + d3 = v.toNat % 10000

/-- Derived (44_command_encoder.md section 4, values of 10000 and above, which the spec derives): a
number is shown as its remainder by 10000. -/
def Obligations.HighDigitsAreLost : Prop :=
  ∀ (sep : Bool) (v : Half) (s : State),
    digitChars v = digitChars (BitVec.ofNat 16 (v.toNat % 10000)) ∧
      exec (.displayNumber sep v) s = exec (.displayNumber sep (BitVec.ofNat 16 (v.toNat % 10000))) s

/-- R188: bit 7 of data byte `i` is set exactly when `i` is 1, the byte is sent and the separator is
enabled; the other seven bits are the character's segments. -/
def Obligations.SeparatorOnlyOnDataByteOne : Prop :=
  ∀ (sep : Bool) (n : Nat) (chars : List Byte) (i : Nat), i < n →
    ∃ b, (textQueue sep n chars).bytes[2 + i]? = some b ∧
      b.getLsbD 7 = (sep && decide (i = 1)) ∧
      b &&& 0x7F#8 = seg (chars.getD i 0)

/-- Derived (30_encoding.md section 2, bytes by position, which the spec derives): the frames of every
command word are one brightness byte, or `0x40` alone and then `0xC0` with 0 to 4 segment bytes. -/
def Obligations.FramesOfEveryCommand : Prop :=
  ∀ (word : Word) (c : Queue), encodeQueue word = some c →
    (∃ b, 0x87#8 ≤ b ∧ b ≤ 0x8F#8 ∧ c.frames = [[b]]) ∨
      ∃ segs, segs.length ≤ 4 ∧ c.frames = [[0x40#8], 0xC0#8 :: segs]

/-- Derived (44_command_encoder.md section 6, counts the spec derives): a frame of `n` bytes has `7 + 27n`
pin ops (for `n = 0`, which the spec leaves undefined, by the model's choice of log 20), and each command
has the pin ops of the spec's table. -/
def Obligations.PinOpCounts : Prop :=
  (∀ bs : List Byte, (frame bs).length = 7 + 27 * bs.length) ∧
    ∀ (word : Word) (c : Queue), encodeQueue word = some c →
      c.expand.length =
          (if fieldOp word = 0#2 then 34
          else if fieldOp word = 1#2 then 68 + 27 * min (fieldLen word).toNat 4
          else 176) ∧
        c.expand.length ≤ 176

/-- Derived (44_command_encoder.md section 3, the four steps of DISPLAY_TEXT as a sequence of
instructions, log 8): executing them one after the other appends exactly the command's expansion to `W`
and leaves both lines released and every register of the FSM and the queue as it was. -/
def Obligations.DisplayTextIsItsFourSteps : Prop :=
  ∀ (sep : Bool) (len c0 c1 c2 c3 : Byte) (s : State),
    let n := min len.toNat 4
    let chars := [c0, c1, c2, c3]
    let steps : List Instr :=
      [.start, .writeByte 0x40, .skipAck, .stop, .start, .writeByte 0xC0, .skipAck] ++
        (List.range n).flatMap (fun i =>
          [.writeByte (if i = 1 ∧ sep = true then seg (chars.getD i 0) ||| 0x80#8
            else seg (chars.getD i 0)), .skipAck]) ++
        [.stop]
    execAll steps s =
      .next { s with
        clkO := true, datO := true
        w := s.w ++ (displayTextQueue sep len c0 c1 c2 c3).expand.map .pin
        dly := BitVec.ofNat Config.dlyW (Config.settleCycles - 1) }

/-! ### The step -/

/-- Derived (45_dispatch_fsm.md section 1; the inputs are log 2): at an edge with `RST = 0` and
`CMD_VALID = 1` in `IDLE`, the step executes the instruction the
offered word decodes to, on the state whose input is used up. -/
def Obligations.IdleStepRunsTheOfferedCommand : Prop :=
  ∀ (s : State) (word : Word), s.st = .idle → s.offers word →
    step s = exec (decodeCommand word) { s with inputs := s.inputs.tail }

/-- R211: a word is accepted exactly at an edge with `RST = 0` and `CMD_VALID = 1` in `IDLE`. There the
step executes its instruction; in `IDLE` without an offer no register changes; and at an edge with
`RST = 1` or outside `IDLE` the step is the same whatever is offered, so an offer leaves no trace. -/
def Obligations.OffersAreTakenExactlyInIdle : Prop :=
  (∀ (s : State) (word : Word), s.st = .idle → s.portIn = ⟨false, true, word⟩ →
      step s = exec (decodeCommand word) { s with inputs := s.inputs.tail }) ∧
    (∀ (s : State) (word : Word), s.st = .idle → s.portIn = ⟨false, false, word⟩ →
      step s = .next { s with inputs := s.inputs.tail }) ∧
    ∀ (s : State) (rest : List PortIn) (r v v' : Bool) (word word' : Word), r = true ∨ s.st ≠ .idle →
      step { s with inputs := ⟨r, v, word⟩ :: rest } = step { s with inputs := ⟨r, v', word'⟩ :: rest }

/-- R217, and R102 in the states of R218 case 4 (log 21): with `RST = 0` in a running state or `DONE`, an
edge with `dly != 0` only decrements it; with `dly = 0` a running state performs its pin op and in `DONE`
the command ends. -/
def Obligations.DelayCounterRule : Prop :=
  ∀ s : State, s.portIn.rst = false → s.st.running = true ∨ s.st = .done →
    (s.dly ≠ 0 → step s = .next { s with dly := s.dly - 1, inputs := s.inputs.tail }) ∧
    (s.dly = 0 → s.st = .done → step s = .next { s with st := .idle, inputs := s.inputs.tail }) ∧
    (s.dly = 0 → s.st.running = true →
      ∃ op t, s.opAt = some op ∧
        exec (.setLine op.line op.level) { s with inputs := s.inputs.tail } = .next t ∧
        step s = .next (t.moveTo s.nextPos))

/-- R214: at a running edge with `dly = 0`, the block performs `SetLine` of the pin op the FSM names and,
in the same edge, moves `(st, sub, bit, bi)` to its successor; with `dly != 0` it only decrements `dly`;
nothing else changes. Every running state names a pin op. -/
def Obligations.RunningStepPerformsOnePinOp : Prop :=
  ∀ s : State, s.portIn.rst = false → s.st.running = true →
    (s.dly ≠ 0 → step s = .next { s with dly := s.dly - 1, inputs := s.inputs.tail }) ∧
    ∃ op : PinOp, s.opAt = some op ∧ (s.dly = 0 →
      step s =
        .next { s with
          clkO := if op.line = .clk then op.level else s.clkO
          datO := if op.line = .clk then s.datO else op.level
          w := s.w ++ [.pin op]
          dly := BitVec.ofNat Config.dlyW (Config.settleCycles - 1)
          st := s.nextPos.st, sub := s.nextPos.sub, bit := s.nextPos.bit, bi := s.nextPos.bi
          inputs := s.inputs.tail })

/-- R215: the pin op selected by the FSM state, in every state whose `sub` is a step of its primitive (past
it the pin op is a free value, log 11), the data level of a `BIT` that of `Q[bi]` where the queue has that
entry; and no successor takes `sub` past 2 outside `STOP`, where its two bits hold 0 to 3. -/
def Obligations.PinOpSelection : Prop :=
  ∀ s : State,
    (s.st = .start → s.sub ≤ 2 → s.opAt = [PinOp.c1, .d1, .d0][s.sub.toNat]?) ∧
    (s.st = .bit → s.sub ≤ 2 → ∃ b : Byte, (s.bi ≤ 5 → s.q.toList[s.bi.toNat]? = some b) ∧
      s.opAt = [PinOp.c0, ⟨.dat, b.getLsbD s.bit.toNat⟩, .c1][s.sub.toNat]?) ∧
    (s.st = .ack → s.sub ≤ 2 → s.opAt = [PinOp.c0, .c1, .c0][s.sub.toNat]?) ∧
    (s.st = .stop → s.opAt = [PinOp.c0, .d0, .c1, .d1][s.sub.toNat]?) ∧
    (s.opAt.isSome = true ↔ s.st.running = true) ∧
    (s.st.running = true → s.nextPos.st ≠ .stop → s.nextPos.sub ≤ 2)

/-- R216: the successor of the FSM state, in every state; the rows that read `qlen - 1` or `j + 1` where
these are numbers of the registers' widths (elsewhere they are free values, log 11). -/
def Obligations.FsmSuccessor : Prop :=
  ∀ s : State,
    (s.st = .start → s.nextPos =
      if s.sub < 2 then ⟨.start, s.sub + 1, s.bit, s.bi⟩ else ⟨.bit, 0, 0, s.bi⟩) ∧
    (s.st = .bit → s.nextPos =
      if s.sub < 2 then ⟨.bit, s.sub + 1, s.bit, s.bi⟩
      else if s.bit < 7 then ⟨.bit, 0, s.bit + 1, s.bi⟩ else ⟨.ack, 0, s.bit, s.bi⟩) ∧
    (s.st = .ack → s.sub < 2 ∨ s.qlen ≠ 0 ∧ s.bi ≠ 7 → s.nextPos =
      if s.sub < 2 then ⟨.ack, s.sub + 1, s.bit, s.bi⟩
      else if s.bi = s.qlen - 1 ∨ (s.brk = true ∧ s.bi = 0) then ⟨.stop, 0, s.bit, s.bi⟩
      else ⟨.bit, 0, 0, s.bi + 1⟩) ∧
    (s.st = .stop → s.sub < 3 ∨ s.qlen ≠ 0 ∧ s.bi ≠ 7 → s.nextPos =
      if s.sub < 3 then ⟨.stop, s.sub + 1, s.bit, s.bi⟩
      else if s.bi < s.qlen - 1 then ⟨.start, 0, s.bit, s.bi + 1⟩ else ⟨.done, 0, s.bit, s.bi⟩)

/-- R223: no edge leads from another state to an unused encoding of `st`; an edge with `RST = 0` in one
goes to `IDLE` and changes nothing else, so it performs no pin op. -/
def Obligations.UnusedEncodingsRecover : Prop :=
  State.reset.st.code ≠ 6#3 ∧ State.reset.st.code ≠ 7#3 ∧
    (∀ s t : State, step s = .next t → s.st.code ≠ 6#3 → s.st.code ≠ 7#3 →
      t.st.code ≠ 6#3 ∧ t.st.code ≠ 7#3) ∧
    ∀ s : State, s.portIn.rst = false → s.st.code = 6#3 ∨ s.st.code = 7#3 →
      step s = .next { s with st := .idle, inputs := s.inputs.tail }

/-- R260: at an edge with `RST = 1`, in any state and whatever is offered, every register takes its
reset value and the marker is appended to `W` unless it is the last element already. -/
def Obligations.ResetEdgeFromAnyState : Prop :=
  ∀ s : State, s.portIn.rst = true →
    ∃ t, step s = .next t ∧
      t.st = .idle ∧ t.sub = 0 ∧ t.bit = 0 ∧ t.bi = 0 ∧ t.dly = 0 ∧
      t.q = ⟨0x00, 0x00, 0x00, 0x00, 0x00, 0x00⟩ ∧ t.qlen = 0 ∧ t.brk = false ∧
      t.clkO = true ∧ t.datO = true ∧ t.cmdReady = true ∧
      t.w = if s.w.getLast? = some .rst then s.w else s.w ++ [.rst]

/-- R43: the reset values of every state element, in the state a model starts in; and the registers
`sub`, `bit`, `bi`, `dly`, `Q`, `qlen` and `brk` cannot be observed in `IDLE`: whatever they hold there,
the next edge leaves the same `st`, lines and `W`, and the same state if it accepts a command. -/
def Obligations.ResetValues : Prop :=
  (State.reset.st = .idle ∧ State.reset.sub = 0 ∧ State.reset.bit = 0 ∧ State.reset.bi = 0 ∧
      State.reset.dly = 0 ∧ State.reset.q.toList = [0x00, 0x00, 0x00, 0x00, 0x00, 0x00] ∧
      State.reset.qlen = 0 ∧ State.reset.brk = false ∧ State.reset.clkO = true ∧
      State.reset.datO = true ∧ State.reset.w = []) ∧
    ∀ (s : State) (sub : BitVec 2) (bit bi qlen : BitVec 3) (dly : Config.Delay) (q : ByteQueue) (brk : Bool),
      s.st = .idle →
      ∃ t t', step s = .next t ∧
        step { s with sub := sub, bit := bit, bi := bi, dly := dly, q := q, qlen := qlen, brk := brk } =
          .next t' ∧
        t'.st = t.st ∧ t'.clkO = t.clkO ∧ t'.datO = t.datO ∧ t'.w = t.w ∧ (t.st ≠ .idle → t' = t)

/-- Derived (45_dispatch_fsm.md section 2): the outputs are functions of the current registers, `CMD_READY`
1 exactly in `IDLE` (encoding 0). That the two lines drive two distinct pins is 10_state.md section 5, and
holds here by the model's choice of the free pins (log 7). -/
def Obligations.OutputsAndPins : Prop :=
  ∀ s : State,
    (s.cmdReady = true ↔ s.st.code = 0#3) ∧
      Config.clkPin ≠ Config.datPin ∧
      s.drives Config.clkPin = some s.clkO ∧ s.drives Config.datPin = some s.datO

/-- Derived (60_exceptions.md section 1, no exception; 93_implementation_defined.md section 1, no behaviour
is `stuck` or a `fault`): every edge answers a next state, in every state and whatever the inputs, so the
machine neither faults nor refuses. Where a register is past the range the spec states for it, a value the
spec does not give is a free one (log 11). -/
def Obligations.EveryStateSteps : Prop := ∀ s : State, ∃ t, step s = .next t

/-- R44: a model starts with `W = []`; an edge with `RST = 1` appends the marker unless it is the last
element already; an edge with `RST = 0` at which a pin op is due (`dly = 0` and the FSM names one) appends
exactly that pin op, whether or not it changes a level, and sets its line; any other edge with `RST = 0`
changes neither `W` nor a line. -/
def Obligations.TraceRecordsEveryChange : Prop :=
  State.reset.w = [] ∧
    ∀ s t : State, step s = .next t →
      (s.portIn.rst = true → t.w = if s.w.getLast? = some .rst then s.w else s.w ++ [.rst]) ∧
      (∀ op, s.portIn.rst = false → s.dly = 0 → s.opAt = some op →
        t.w = s.w ++ [.pin op] ∧
          t.clkO = (if op.line = .clk then op.level else s.clkO) ∧
          t.datO = if op.line = .clk then s.datO else op.level) ∧
      (s.portIn.rst = false → s.dly ≠ 0 ∨ s.opAt = none →
        t.w = s.w ∧ t.clkO = s.clkO ∧ t.datO = s.datO)

/-! ### Invariants -/

/-- The reset state meets the invariant (derived: 10_state.md section 5 and the definition of Inv). -/
def Obligations.ResetMeetsTheInvariant : Prop := State.reset.Inv

/-- Every edge keeps the invariant: the delay bound (R39), `dly = 0` in `IDLE` (R107), the FSM ranges
(R215) with `bi` inside the queue (R216), the queue's shape (R96), the line levels of every FSM
position (R125, R128, R251), the lines as `W` leaves them (R40, R44) and single reset markers (R44), for
every input. Derived: several of these are inferences the spec marks. -/
def Obligations.EveryStepKeepsTheInvariant : Prop :=
  ∀ s t : State, s.Inv → step s = .next t → t.Inv

/-- Derived (60_exceptions.md section 1, no exception; the invariant is the definition of Inv): from a state
that meets the invariant every run goes on, for any number of edges and whatever the inputs, and stays in
it. -/
def Obligations.InvariantRunsGoOn : Prop :=
  ∀ s : State, s.Inv → ∀ n : Nat, ∃ t, runsTo n s t ∧ t.Inv

/-- Derived (41_framer.md section 2, the data-edge invariant, which the spec derives): the data line
changes while the clock line is high only at the third pin op of a start, falling, and at the fourth of a
stop, rising. -/
def Obligations.DataEdgesUnderAHighClock : Prop :=
  ∀ s t : State, s.Inv → step s = .next t → s.portIn.rst = false → s.clkO = true →
    t.datO ≠ s.datO →
    (s.st = .start ∧ s.sub = 2 ∧ t.datO = false) ∨ (s.st = .stop ∧ s.sub = 3 ∧ t.datO = true)

/-- Derived (41_framer.md section 2, the data-edge invariant): in any sequence of frames begun with both
lines released, the data line changes under a high clock exactly twice a frame. -/
def Obligations.TwoHighDataEdgesAFrame : Prop :=
  ∀ frs : List (List Byte), (∀ bs ∈ frs, bs ≠ []) →
    highDataEdges (frs.flatMap frame) (true, true) = 2 * frs.length

/-! ### Runs -/

/-- Derived (45_dispatch_fsm.md section 2, the FSM's steps of one primitive; log 8): from the first step
of START, WRITE_BIT, SKIP_ACK or STOP with no delay running, the FSM performs that primitive as `exec`
does: at its last pin op the state is the one `exec` gives, but for the FSM position, which is the
successor of the primitive's last step, and the inputs used up. -/
def Obligations.FsmRunsThePrimitives : Prop :=
  ∀ (s : State) (i : Instr) (k : Nat),
    (s.st = .start ∧ i = .start ∧ k = 2) ∨
      (s.st = .bit ∧ i = .writeBit ((s.byteAt s.bi).getLsbD s.bit.toNat) ∧ k = 2) ∨
      (s.st = .ack ∧ i = .skipAck ∧ k = 2) ∨ (s.st = .stop ∧ i = .stop ∧ k = 3) →
    s.sub = 0 → s.dly = 0 → noReset (k * Config.settleCycles + 1) s →
    ∃ t u, exec i s = .next u ∧ runsTo (k * Config.settleCycles + 1) s t ∧
      t = { u with
        st := t.st, sub := t.sub, bit := t.bit, bi := t.bi
        inputs := s.inputs.drop (k * Config.settleCycles + 1) } ∧
      t.pos = ({ s with sub := BitVec.ofNat 2 k } : State).nextPos

/-- Derived (45_dispatch_fsm.md section 3, agreement, which the spec derives): a command accepted in
`IDLE` with `RST` kept 0 performs exactly the pin ops of its expansion, in order, whatever else the host
offers meanwhile, and the block is back in `IDLE` with both lines released after `N*S + 1` further
edges. -/
def Obligations.AcceptedCommandTransmitsItsExpansion : Prop :=
  ∀ (s : State) (word : Word) (c : Queue), s.st = .idle → s.offers word → encodeQueue word = some c →
    noReset (c.expand.length * Config.settleCycles + 2) s →
    ∃ t, runsTo (c.expand.length * Config.settleCycles + 2) s t ∧
      t.st = .idle ∧ t.clkO = true ∧ t.datO = true ∧ t.dly = 0 ∧
      t.w = s.w ++ c.expand.map .pin ∧ t.lutData = s.lutData ∧
      t.inputs = s.inputs.drop (c.expand.length * Config.settleCycles + 2)

/-- Derived (45_dispatch_fsm.md section 3, cycle timing, which the spec derives): with `S` settle cycles,
`N` pin ops and acceptance at edge `e0`, pin op `k` is performed at edge `e0 + 1 + k*S`, `st` is `DONE`
from edge `e0 + 1 + (N-1)*S` and `CMD_READY` stays 0 up to edge `e0 + N*S`. -/
def Obligations.CycleTimingOfACommand : Prop :=
  ∀ (s : State) (word : Word) (c : Queue) (j : Nat), s.st = .idle → s.offers word →
    encodeQueue word = some c → j ≤ c.expand.length * Config.settleCycles →
    noReset (1 + j) s →
    ∃ t, runsTo (1 + j) s t ∧ t.cmdReady = false ∧
      t.w = s.w ++ (c.expand.take ((j + Config.settleCycles - 1) / Config.settleCycles)).map .pin ∧
      (t.st = .done ↔ 1 + (c.expand.length - 1) * Config.settleCycles ≤ j)

/-- Derived (70_reset_and_hazards.md section 1 with the timing above): a reset edge after `j` further
edges cuts the command: the pin ops performed so far stay in `W` before the marker, the others are never
performed, the lines are released and the block is in `IDLE`. -/
def Obligations.ResetCutsARunningCommand : Prop :=
  ∀ (s : State) (word : Word) (c : Queue) (j : Nat), s.st = .idle → s.offers word →
    encodeQueue word = some c → 0 < j → j ≤ c.expand.length * Config.settleCycles →
    noReset (1 + j) s → (∃ p, s.inputs[1 + j]? = some p ∧ p.rst = true) →
    ∃ t, runsTo (2 + j) s t ∧ t.st = .idle ∧ t.clkO = true ∧ t.datO = true ∧ t.dly = 0 ∧
      t.w = s.w ++
        (c.expand.take ((j + Config.settleCycles - 1) / Config.settleCycles)).map .pin ++ [.rst]

/-- Derived (45_dispatch_fsm.md section 3, the transaction-level step, which the spec derives): from
acceptance to the return to `IDLE` the cycle-level block does what `AcceptTx` does, for every word, the
reserved ones among them. -/
def Obligations.TransactionLevelAgrees : Prop :=
  ∀ (s : State) (word : Word), s.st = .idle → s.offers word →
    let n := match encodeQueue word with
      | some c => c.expand.length * Config.settleCycles + 2
      | none => 1
    noReset n s → ∃ t, runsTo n s t ∧ t.st = .idle ∧ t.tx = acceptTx word s.tx

/-- Derived (41_framer.md section 2, the reference receiver, which the spec derives): the receiver reads
back from any sequence of frames exactly the bytes framed, and so from every command's trace its
frames. -/
def Obligations.ReceiverReadsTheFramesBack : Prop :=
  (∀ frs : List (List Byte), (∀ bs ∈ frs, bs ≠ []) →
      decodeTrace ((frs.flatMap frame).map .pin) = frs) ∧
    ∀ (word : Word) (c : Queue), encodeQueue word = some c →
      decodeTrace (c.expand.map .pin) = c.frames
end

