-- ==== Sys2Proof/Laws/Config.lean ====
section
/-!
SUPPORT. What is known of the free values of Config, and the arithmetic of the delay counter, whose width
is fixed but not known.
-/

namespace Sys2Proof.Config

/-- `SETTLE_CYCLES` is at least 1 (R14). -/
theorem settleCycles_pos : 0 < settleCycles := Nat.succ_pos _

/-- The delay counter has at least one bit (R39). -/
theorem dlyW_pos : 0 < dlyW := by
  unfold dlyW dlyWidth
  split <;> omega

/-- `SETTLE_CYCLES - 1` and every smaller value fit in the delay counter (R39). -/
theorem lt_two_pow_dlyW {n : Nat} (h : n < settleCycles) : n < 2 ^ dlyW := by
  unfold dlyW dlyWidth
  split
  · omega
  · have := Nat.lt_log2_self (n := settleCycles - 1)
    omega

/-- No value that the delay counter holds is cut (R39, R101). -/
theorem toNat_delay {n : Nat} (h : n < settleCycles) : (BitVec.ofNat dlyW n).toNat = n := by
  rw [BitVec.toNat_ofNat, Nat.mod_eq_of_lt (lt_two_pow_dlyW h)]

/-- The load of the delay counter (R101). -/
theorem toNat_load : (BitVec.ofNat dlyW (settleCycles - 1)).toNat = settleCycles - 1 :=
  toNat_delay (Nat.sub_lt settleCycles_pos Nat.one_pos)

theorem toNat_delay_one : (1 : Delay).toNat = 1 :=
  Nat.mod_eq_of_lt (Nat.one_lt_two_pow dlyW_pos.ne')

/-- Counting down by 1 (R102) does not wrap. -/
theorem toNat_delay_sub_one {d : Delay} (h : d ≠ 0) : (d - 1).toNat = d.toNat - 1 := by
  have hpos : d.toNat ≠ 0 := fun h0 => h (BitVec.eq_of_toNat_eq (by simpa using h0))
  rw [BitVec.toNat_sub_of_le (by rw [BitVec.le_def, toNat_delay_one]; omega), toNat_delay_one]

/-- A delay of 1 is not 0. -/
theorem delay_one_ne_zero : (1 : Delay) ≠ 0 := fun h => by
  have hone := toNat_delay_one
  rw [h] at hone
  simp at hone

/-- Bit 7 of a free entry is clear: it has seven bits. -/
theorem getLsbD_seven_setWidth (x : BitVec 7) : (x.setWidth 8).getLsbD 7 = false := by
  simp

end Sys2Proof.Config
end

