-- ==== Sys2Proof/Laws/Encoding.lean ====
section
/-!
SUPPORT. What each field of an assembled command word reads back as (R80, R89), and the wire bytes of the
brightness levels (R91).
-/

namespace Sys2Proof

section Text

variable (sep : Bool) (len c0 c1 c2 c3 : Byte)

@[simp] theorem fieldOp_encText : fieldOp (encText sep len c0 c1 c2 c3) = 1#2 := by
  refine BitVec.eq_of_getLsbD_eq fun i hi => ?_
  interval_cases i <;> simp [fieldOp, encText]

@[simp] theorem fieldSep_encText : fieldSep (encText sep len c0 c1 c2 c3) = sep := by
  simp [fieldSep, encText]

@[simp] theorem fieldLen_encText : fieldLen (encText sep len c0 c1 c2 c3) = len := by
  refine BitVec.eq_of_getLsbD_eq fun i hi => ?_
  interval_cases i <;> simp [fieldLen, encText]

@[simp] theorem fieldChar_zero_encText : fieldChar (encText sep len c0 c1 c2 c3) 0 = c0 := by
  refine BitVec.eq_of_getLsbD_eq fun i hi => ?_
  interval_cases i <;> simp [fieldChar, encText]

@[simp] theorem fieldChar_one_encText : fieldChar (encText sep len c0 c1 c2 c3) 1 = c1 := by
  refine BitVec.eq_of_getLsbD_eq fun i hi => ?_
  interval_cases i <;> simp [fieldChar, encText]

@[simp] theorem fieldChar_two_encText : fieldChar (encText sep len c0 c1 c2 c3) 2 = c2 := by
  refine BitVec.eq_of_getLsbD_eq fun i hi => ?_
  interval_cases i <;> simp [fieldChar, encText]

@[simp] theorem fieldChar_three_encText : fieldChar (encText sep len c0 c1 c2 c3) 3 = c3 := by
  refine BitVec.eq_of_getLsbD_eq fun i hi => ?_
  interval_cases i <;> simp [fieldChar, encText]

end Text

@[simp] theorem fieldOp_encNum (sep : Bool) (value : Half) : fieldOp (encNum sep value) = 2#2 := by
  refine BitVec.eq_of_getLsbD_eq fun i hi => ?_
  interval_cases i <;> simp [fieldOp, encNum]

@[simp] theorem fieldSep_encNum (sep : Bool) (value : Half) : fieldSep (encNum sep value) = sep := by
  simp [fieldSep, encNum]

@[simp] theorem fieldValue_encNum (sep : Bool) (value : Half) :
    fieldValue (encNum sep value) = value := by
  refine BitVec.eq_of_getLsbD_eq fun i hi => ?_
  interval_cases i <;> simp [fieldValue, encNum]

@[simp] theorem fieldOp_encBright (level : BitVec 4) : fieldOp (encBright level) = 0#2 := by
  refine BitVec.eq_of_getLsbD_eq fun i hi => ?_
  interval_cases i <;> simp [fieldOp, encBright]

@[simp] theorem fieldLevel_encBright (level : BitVec 4) : fieldLevel (encBright level) = level := by
  refine BitVec.eq_of_getLsbD_eq fun i hi => ?_
  interval_cases i <;> simp [fieldLevel, encBright]

@[simp] theorem decodeCommand_encBright (level : BitVec 4) :
    decodeCommand (encBright level) = .setBrightness level := by
  simp [decodeCommand]

@[simp] theorem decodeCommand_encText (sep : Bool) (len c0 c1 c2 c3 : Byte) :
    decodeCommand (encText sep len c0 c1 c2 c3) = .displayText sep len c0 c1 c2 c3 := by
  simp [decodeCommand]

@[simp] theorem decodeCommand_encNum (sep : Bool) (value : Half) :
    decodeCommand (encNum sep value) = .displayNumber sep value := by
  simp [decodeCommand]

@[simp] theorem decodeCommand_encRsvd : decodeCommand encRsvd = .reserved := by decide

@[simp] theorem decodeWire_levelByte (x : BitVec 3) :
    decodeWire .first (levelByte x) = .ok (.wireBrightnessLevel x) := by
  revert x; decide

end Sys2Proof
end

