-- ==== Sys2Proof/Laws/State.lean ====
section
/-!
SUPPORT. One lemma for each field under each update of State: what the operations of Machine/Ops.lean and
Machine/Fsm.lean leave in it.
-/

namespace Sys2Proof.Machine.State

variable (s : State)

/-! ### `countDown` -/

@[simp] theorem countDown_st : s.countDown.st = s.st := rfl
@[simp] theorem countDown_sub : s.countDown.sub = s.sub := rfl
@[simp] theorem countDown_bit : s.countDown.bit = s.bit := rfl
@[simp] theorem countDown_bi : s.countDown.bi = s.bi := rfl
@[simp] theorem countDown_dly : s.countDown.dly = s.dly - 1 := rfl
@[simp] theorem countDown_q : s.countDown.q = s.q := rfl
@[simp] theorem countDown_qlen : s.countDown.qlen = s.qlen := rfl
@[simp] theorem countDown_brk : s.countDown.brk = s.brk := rfl
@[simp] theorem countDown_clkO : s.countDown.clkO = s.clkO := rfl
@[simp] theorem countDown_datO : s.countDown.datO = s.datO := rfl
@[simp] theorem countDown_w : s.countDown.w = s.w := rfl
@[simp] theorem countDown_lutData : s.countDown.lutData = s.lutData := rfl
@[simp] theorem countDown_inputs : s.countDown.inputs = s.inputs := rfl

/-! ### `loadQueue` -/

@[simp] theorem loadQueue_st (c : Queue) : (s.loadQueue c).st = .start := rfl
@[simp] theorem loadQueue_sub (c : Queue) : (s.loadQueue c).sub = 0 := rfl
@[simp] theorem loadQueue_bit (c : Queue) : (s.loadQueue c).bit = 0 := rfl
@[simp] theorem loadQueue_bi (c : Queue) : (s.loadQueue c).bi = 0 := rfl
@[simp] theorem loadQueue_dly (c : Queue) : (s.loadQueue c).dly = 0 := rfl
@[simp] theorem loadQueue_q (c : Queue) : (s.loadQueue c).q = ByteQueue.ofList c.bytes := rfl
@[simp] theorem loadQueue_qlen (c : Queue) :
    (s.loadQueue c).qlen = BitVec.ofNat 3 c.bytes.length := rfl
@[simp] theorem loadQueue_brk (c : Queue) : (s.loadQueue c).brk = c.brk := rfl
@[simp] theorem loadQueue_clkO (c : Queue) : (s.loadQueue c).clkO = s.clkO := rfl
@[simp] theorem loadQueue_datO (c : Queue) : (s.loadQueue c).datO = s.datO := rfl
@[simp] theorem loadQueue_w (c : Queue) : (s.loadQueue c).w = s.w := rfl
@[simp] theorem loadQueue_lutData (c : Queue) : (s.loadQueue c).lutData = s.lutData := rfl
@[simp] theorem loadQueue_inputs (c : Queue) : (s.loadQueue c).inputs = s.inputs := rfl

/-! ### `resetEdge` -/

@[simp] theorem resetEdge_st : s.resetEdge.st = .idle := rfl
@[simp] theorem resetEdge_sub : s.resetEdge.sub = 0 := rfl
@[simp] theorem resetEdge_bit : s.resetEdge.bit = 0 := rfl
@[simp] theorem resetEdge_bi : s.resetEdge.bi = 0 := rfl
@[simp] theorem resetEdge_dly : s.resetEdge.dly = 0 := rfl
@[simp] theorem resetEdge_q : s.resetEdge.q = ByteQueue.zero := rfl
@[simp] theorem resetEdge_qlen : s.resetEdge.qlen = 0 := rfl
@[simp] theorem resetEdge_brk : s.resetEdge.brk = false := rfl
@[simp] theorem resetEdge_clkO : s.resetEdge.clkO = true := rfl
@[simp] theorem resetEdge_datO : s.resetEdge.datO = true := rfl
@[simp] theorem resetEdge_w : s.resetEdge.w = markReset s.w := rfl
@[simp] theorem resetEdge_lutData : s.resetEdge.lutData = s.lutData := rfl
@[simp] theorem resetEdge_inputs : s.resetEdge.inputs = s.inputs := rfl

/-! ### `takeInput` -/

@[simp] theorem takeInput_st : s.takeInput.st = s.st := rfl
@[simp] theorem takeInput_sub : s.takeInput.sub = s.sub := rfl
@[simp] theorem takeInput_bit : s.takeInput.bit = s.bit := rfl
@[simp] theorem takeInput_bi : s.takeInput.bi = s.bi := rfl
@[simp] theorem takeInput_dly : s.takeInput.dly = s.dly := rfl
@[simp] theorem takeInput_q : s.takeInput.q = s.q := rfl
@[simp] theorem takeInput_qlen : s.takeInput.qlen = s.qlen := rfl
@[simp] theorem takeInput_brk : s.takeInput.brk = s.brk := rfl
@[simp] theorem takeInput_clkO : s.takeInput.clkO = s.clkO := rfl
@[simp] theorem takeInput_datO : s.takeInput.datO = s.datO := rfl
@[simp] theorem takeInput_w : s.takeInput.w = s.w := rfl
@[simp] theorem takeInput_lutData : s.takeInput.lutData = s.lutData := rfl
@[simp] theorem takeInput_inputs : s.takeInput.inputs = s.inputs.tail := rfl

/-! ### `moveTo` -/

@[simp] theorem moveTo_st (p : FsmPos) : (s.moveTo p).st = p.st := rfl
@[simp] theorem moveTo_sub (p : FsmPos) : (s.moveTo p).sub = p.sub := rfl
@[simp] theorem moveTo_bit (p : FsmPos) : (s.moveTo p).bit = p.bit := rfl
@[simp] theorem moveTo_bi (p : FsmPos) : (s.moveTo p).bi = p.bi := rfl
@[simp] theorem moveTo_dly (p : FsmPos) : (s.moveTo p).dly = s.dly := rfl
@[simp] theorem moveTo_q (p : FsmPos) : (s.moveTo p).q = s.q := rfl
@[simp] theorem moveTo_qlen (p : FsmPos) : (s.moveTo p).qlen = s.qlen := rfl
@[simp] theorem moveTo_brk (p : FsmPos) : (s.moveTo p).brk = s.brk := rfl
@[simp] theorem moveTo_clkO (p : FsmPos) : (s.moveTo p).clkO = s.clkO := rfl
@[simp] theorem moveTo_datO (p : FsmPos) : (s.moveTo p).datO = s.datO := rfl
@[simp] theorem moveTo_w (p : FsmPos) : (s.moveTo p).w = s.w := rfl
@[simp] theorem moveTo_lutData (p : FsmPos) : (s.moveTo p).lutData = s.lutData := rfl
@[simp] theorem moveTo_inputs (p : FsmPos) : (s.moveTo p).inputs = s.inputs := rfl

/-! ### `toIdle` -/

@[simp] theorem toIdle_st : s.toIdle.st = .idle := rfl
@[simp] theorem toIdle_sub : s.toIdle.sub = s.sub := rfl
@[simp] theorem toIdle_bit : s.toIdle.bit = s.bit := rfl
@[simp] theorem toIdle_bi : s.toIdle.bi = s.bi := rfl
@[simp] theorem toIdle_dly : s.toIdle.dly = s.dly := rfl
@[simp] theorem toIdle_q : s.toIdle.q = s.q := rfl
@[simp] theorem toIdle_qlen : s.toIdle.qlen = s.qlen := rfl
@[simp] theorem toIdle_brk : s.toIdle.brk = s.brk := rfl
@[simp] theorem toIdle_clkO : s.toIdle.clkO = s.clkO := rfl
@[simp] theorem toIdle_datO : s.toIdle.datO = s.datO := rfl
@[simp] theorem toIdle_w : s.toIdle.w = s.w := rfl
@[simp] theorem toIdle_lutData : s.toIdle.lutData = s.lutData := rfl
@[simp] theorem toIdle_inputs : s.toIdle.inputs = s.inputs := rfl

/-! ### `startSettle` -/

@[simp] theorem startSettle_st : s.startSettle.st = s.st := rfl
@[simp] theorem startSettle_sub : s.startSettle.sub = s.sub := rfl
@[simp] theorem startSettle_bit : s.startSettle.bit = s.bit := rfl
@[simp] theorem startSettle_bi : s.startSettle.bi = s.bi := rfl
@[simp] theorem startSettle_dly : 
    s.startSettle.dly = BitVec.ofNat Config.dlyW (Config.settleCycles - 1) := rfl
@[simp] theorem startSettle_q : s.startSettle.q = s.q := rfl
@[simp] theorem startSettle_qlen : s.startSettle.qlen = s.qlen := rfl
@[simp] theorem startSettle_brk : s.startSettle.brk = s.brk := rfl
@[simp] theorem startSettle_clkO : s.startSettle.clkO = s.clkO := rfl
@[simp] theorem startSettle_datO : s.startSettle.datO = s.datO := rfl
@[simp] theorem startSettle_w : s.startSettle.w = s.w := rfl
@[simp] theorem startSettle_lutData : s.startSettle.lutData = s.lutData := rfl
@[simp] theorem startSettle_inputs : s.startSettle.inputs = s.inputs := rfl

/-! ### `emit` -/

@[simp] theorem emit_st (op : PinOp) : (s.emit op).st = s.st := rfl
@[simp] theorem emit_sub (op : PinOp) : (s.emit op).sub = s.sub := rfl
@[simp] theorem emit_bit (op : PinOp) : (s.emit op).bit = s.bit := rfl
@[simp] theorem emit_bi (op : PinOp) : (s.emit op).bi = s.bi := rfl
@[simp] theorem emit_dly (op : PinOp) : (s.emit op).dly = s.dly := rfl
@[simp] theorem emit_q (op : PinOp) : (s.emit op).q = s.q := rfl
@[simp] theorem emit_qlen (op : PinOp) : (s.emit op).qlen = s.qlen := rfl
@[simp] theorem emit_brk (op : PinOp) : (s.emit op).brk = s.brk := rfl
@[simp] theorem emit_clkO (op : PinOp) : (s.emit op).clkO = s.clkO := rfl
@[simp] theorem emit_datO (op : PinOp) : (s.emit op).datO = s.datO := rfl
@[simp] theorem emit_w (op : PinOp) : (s.emit op).w = s.w ++ [.pin op] := rfl
@[simp] theorem emit_lutData (op : PinOp) : (s.emit op).lutData = s.lutData := rfl
@[simp] theorem emit_inputs (op : PinOp) : (s.emit op).inputs = s.inputs := rfl

/-! ### `drive` -/

@[simp] theorem drive_st (l : Line) (v : Bool) : (s.drive l v).st = s.st := by cases l <;> rfl
@[simp] theorem drive_sub (l : Line) (v : Bool) : (s.drive l v).sub = s.sub := by cases l <;> rfl
@[simp] theorem drive_bit (l : Line) (v : Bool) : (s.drive l v).bit = s.bit := by cases l <;> rfl
@[simp] theorem drive_bi (l : Line) (v : Bool) : (s.drive l v).bi = s.bi := by cases l <;> rfl
@[simp] theorem drive_dly (l : Line) (v : Bool) : (s.drive l v).dly = s.dly := by cases l <;> rfl
@[simp] theorem drive_q (l : Line) (v : Bool) : (s.drive l v).q = s.q := by cases l <;> rfl
@[simp] theorem drive_qlen (l : Line) (v : Bool) : (s.drive l v).qlen = s.qlen := by cases l <;> rfl
@[simp] theorem drive_brk (l : Line) (v : Bool) : (s.drive l v).brk = s.brk := by cases l <;> rfl
@[simp] theorem drive_clkO (l : Line) (v : Bool) :
    (s.drive l v).clkO = if l = .clk then v else s.clkO := by cases l <;> rfl
@[simp] theorem drive_datO (l : Line) (v : Bool) :
    (s.drive l v).datO = if l = .clk then s.datO else v := by cases l <;> rfl
@[simp] theorem drive_w (l : Line) (v : Bool) : (s.drive l v).w = s.w := by cases l <;> rfl
@[simp] theorem drive_lutData (l : Line) (v : Bool) :
    (s.drive l v).lutData = s.lutData := by cases l <;> rfl
@[simp] theorem drive_inputs (l : Line) (v : Bool) :
    (s.drive l v).inputs = s.inputs := by cases l <;> rfl

/-! ### `setLine` -/

@[simp] theorem setLine_st (l : Line) (v : Bool) : (s.setLine l v).st = s.st := by cases l <;> rfl
@[simp] theorem setLine_sub (l : Line) (v : Bool) :
    (s.setLine l v).sub = s.sub := by cases l <;> rfl
@[simp] theorem setLine_bit (l : Line) (v : Bool) :
    (s.setLine l v).bit = s.bit := by cases l <;> rfl
@[simp] theorem setLine_bi (l : Line) (v : Bool) : (s.setLine l v).bi = s.bi := by cases l <;> rfl
@[simp] theorem setLine_dly (l : Line) (v : Bool) :
    (s.setLine l v).dly = BitVec.ofNat Config.dlyW (Config.settleCycles - 1) := by cases l <;> rfl
@[simp] theorem setLine_q (l : Line) (v : Bool) : (s.setLine l v).q = s.q := by cases l <;> rfl
@[simp] theorem setLine_qlen (l : Line) (v : Bool) :
    (s.setLine l v).qlen = s.qlen := by cases l <;> rfl
@[simp] theorem setLine_brk (l : Line) (v : Bool) :
    (s.setLine l v).brk = s.brk := by cases l <;> rfl
@[simp] theorem setLine_clkO (l : Line) (v : Bool) :
    (s.setLine l v).clkO = if l = .clk then v else s.clkO := by cases l <;> rfl
@[simp] theorem setLine_datO (l : Line) (v : Bool) :
    (s.setLine l v).datO = if l = .clk then s.datO else v := by cases l <;> rfl
@[simp] theorem setLine_w (l : Line) (v : Bool) :
    (s.setLine l v).w = s.w ++ [.pin ⟨l, v⟩] := by cases l <;> rfl
@[simp] theorem setLine_lutData (l : Line) (v : Bool) :
    (s.setLine l v).lutData = s.lutData := by cases l <;> rfl
@[simp] theorem setLine_inputs (l : Line) (v : Bool) :
    (s.setLine l v).inputs = s.inputs := by cases l <;> rfl

end Sys2Proof.Machine.State
end

