-- ==== Sys2Proof/Laws/Ops.lean ====
section
/-!
SUPPORT. Sequences of pin ops: every primitive and wire byte is `performOps` of its wire trace, and
`performOps` in closed form.
-/

namespace Sys2Proof

/-- The levels (clock, data) after one pin op. -/
def PinOp.levels (op : PinOp) (l : Bool × Bool) : Bool × Bool :=
  (if op.line = .clk then op.level else l.1, if op.line = .clk then l.2 else op.level)

end Sys2Proof

namespace Sys2Proof.Machine

/-- Pin ops performed one after the other. -/
def State.performOps (ops : List PinOp) (s : State) : State :=
  ops.foldl (fun s op => s.setLine op.line op.level) s

/-- The levels after pin ops. -/
def levelsAfter (ops : List PinOp) (l : Bool × Bool) : Bool × Bool :=
  ops.foldl (fun l op => op.levels l) l

@[simp] theorem State.performOps_nil (s : State) : s.performOps [] = s := rfl

@[simp] theorem State.performOps_cons (op : PinOp) (ops : List PinOp) (s : State) :
    s.performOps (op :: ops) = (s.setLine op.line op.level).performOps ops := rfl

theorem State.performOps_append (as bs : List PinOp) (s : State) :
    s.performOps (as ++ bs) = (s.performOps as).performOps bs := by
  simp [State.performOps]

@[simp] theorem levelsAfter_nil (l : Bool × Bool) : levelsAfter [] l = l := rfl

@[simp] theorem levelsAfter_cons (op : PinOp) (ops : List PinOp) (l : Bool × Bool) :
    levelsAfter (op :: ops) l = levelsAfter ops (op.levels l) := rfl

theorem levelsAfter_append (as bs : List PinOp) (l : Bool × Bool) :
    levelsAfter (as ++ bs) l = levelsAfter bs (levelsAfter as l) := by
  simp [levelsAfter]

/-- `SetLine` as one record. -/
theorem State.setLine_eq (line : Line) (v : Bool) (s : State) :
    s.setLine line v =
      { s with
        clkO := ((⟨line, v⟩ : PinOp).levels (s.clkO, s.datO)).1
        datO := ((⟨line, v⟩ : PinOp).levels (s.clkO, s.datO)).2
        w := s.w ++ [.pin ⟨line, v⟩]
        dly := BitVec.ofNat Config.dlyW (Config.settleCycles - 1) } := by
  cases line <;> rfl

/-- Everything a non-empty sequence of pin ops does. -/
theorem State.performOps_eq {ops : List PinOp} (h : ops ≠ []) (s : State) :
    s.performOps ops =
      { s with
        clkO := (levelsAfter ops (s.clkO, s.datO)).1
        datO := (levelsAfter ops (s.clkO, s.datO)).2
        w := s.w ++ ops.map .pin
        dly := BitVec.ofNat Config.dlyW (Config.settleCycles - 1) } := by
  induction ops generalizing s with
  | nil => exact absurd rfl h
  | cons op ops ih =>
    rw [State.performOps_cons]
    cases ops with
    | nil => rw [State.performOps_nil, State.setLine_eq]; rfl
    | cons op' ops =>
      rw [ih (by simp), State.setLine_eq]
      simp [levelsAfter]

theorem State.startSeq_eq (s : State) : s.startSeq = s.performOps traceStart := rfl

theorem State.stopSeq_eq (s : State) : s.stopSeq = s.performOps traceStop := rfl

theorem State.skipAckSeq_eq (s : State) : s.skipAckSeq = s.performOps traceSkipAck := rfl

theorem State.writeBitSeq_eq (v : Bool) (s : State) :
    s.writeBitSeq v = s.performOps (traceWriteBit v) := rfl

theorem State.writeByteSeq_eq (b : Byte) (s : State) :
    s.writeByteSeq b = s.performOps (traceWriteByte b) := rfl

theorem State.byteSeq_eq (b : Byte) (s : State) :
    s.byteSeq b = s.performOps (traceWriteByte b ++ traceSkipAck) := by
  rw [State.performOps_append]; rfl

theorem State.framedByteSeq_eq (b : Byte) (s : State) :
    s.framedByteSeq b = s.performOps (frame [b]) := by
  simp only [frame, List.flatMap_cons, List.flatMap_nil, List.append_nil, State.performOps_append]
  rfl

/-! ### Levels after the primitives (R125) -/

@[simp] theorem levelsAfter_start (l : Bool × Bool) : levelsAfter traceStart l = (true, false) := rfl

@[simp] theorem levelsAfter_stop (l : Bool × Bool) : levelsAfter traceStop l = (true, true) := rfl

@[simp] theorem levelsAfter_skipAck (l : Bool × Bool) :
    levelsAfter traceSkipAck l = (false, l.2) := rfl

@[simp] theorem levelsAfter_writeBit (v : Bool) (l : Bool × Bool) :
    levelsAfter (traceWriteBit v) l = (true, v) := rfl

@[simp] theorem levelsAfter_writeByte (b : Byte) (l : Bool × Bool) :
    levelsAfter (traceWriteByte b) l = (true, b.getLsbD 7) := rfl

/-- A frame leaves both lines released (R121). -/
@[simp] theorem levelsAfter_frame (bs : List Byte) (l : Bool × Bool) :
    levelsAfter (frame bs) l = (true, true) := by
  simp [frame, levelsAfter_append]

/-! ### Lengths (R120 to R124, R140, R141) -/

@[simp] theorem length_traceWriteByte (b : Byte) : (traceWriteByte b).length = 24 := rfl

theorem frame_ne_nil (bs : List Byte) : frame bs ≠ [] := by
  simp [frame, traceStart]

/-- The trace of one framed byte and its skip. -/
theorem length_flatMap_bytes (bs : List Byte) :
    (bs.flatMap fun b => traceWriteByte b ++ traceSkipAck).length = 27 * bs.length := by
  induction bs with
  | nil => rfl
  | cons b bs ih =>
    rw [List.flatMap_cons, List.length_append, ih, List.length_append, length_traceWriteByte]
    simp only [traceSkipAck, List.length_cons, List.length_nil]
    omega

end Sys2Proof.Machine
end

