-- ==== Sys2Proof/Laws/Fsm.lean ====
section
/-!
SUPPORT. The FSM and the step: when a pin op is pending, and once and for all what an edge can do
(`step_eq`, `step_cases`).
-/

namespace Sys2Proof.Machine

theorem State.fsmInRange_iff (s : State) :
    s.fsmInRange = true ↔
      1 ≤ s.qlen.toNat ∧ s.qlen.toNat ≤ 6 ∧ s.bi.toNat ≤ 5 ∧ s.sub.toNat ≤ s.st.lastSub := by
  simp [State.fsmInRange, and_assoc]

/-- The entries 0 to 5 are the six bytes of the queue (R35). -/
theorem ByteQueue.getElem?_toList {j : BitVec 3} (q : ByteQueue) (h : j.toNat < 6) :
    q.toList[j.toNat]? = some (q.entry j) := by
  unfold ByteQueue.entry
  generalize j.toNat = n at h
  match n, h with
  | 0, _ => rfl
  | 1, _ => rfl
  | 2, _ => rfl
  | 3, _ => rfl
  | 4, _ => rfl
  | 5, _ => rfl

/-- In range `qlen - 1` is a number (R216). -/
theorem State.lastIndex_eq {s : State} (h : 1 ≤ s.qlen.toNat) : s.lastIndex = s.qlen.toNat - 1 := by
  refine if_neg fun h0 => ?_
  rw [h0] at h
  exact absurd h (by decide)

theorem State.lastByte_iff {s : State} (h : 1 ≤ s.qlen.toNat) :
    s.lastByte = true ↔ s.bi.toNat + 1 = s.qlen.toNat := by
  simp only [State.lastByte, State.lastIndex_eq h, decide_eq_true_eq]
  omega

theorem State.moreBytes_iff {s : State} (h : 1 ≤ s.qlen.toNat) :
    s.moreBytes = true ↔ s.bi.toNat + 1 < s.qlen.toNat := by
  simp only [State.moreBytes, State.lastIndex_eq h, decide_eq_true_eq]
  omega

theorem State.nextIndex_eq {s : State} (h : s.bi.toNat < 7) : s.nextIndex = s.bi + 1 := by
  refine if_neg fun h7 => ?_
  rw [h7] at h
  exact absurd h (by decide)

/-- Whether a frame closes depends on `qlen`, `brk` and `bi` alone (R216). -/
theorem State.closesFrame_congr {s t : State} (hq : t.qlen = s.qlen) (hb : t.brk = s.brk) (hi : t.bi = s.bi) :
    t.closesFrame = s.closesFrame := by
  rw [State.closesFrame, State.lastByte, State.lastIndex, hq, hb, hi]
  rfl

/-! ### The pending pin op -/

theorem State.opAt_of_running {s : State} (h : s.st.running = true) : s.opAt = some s.rowOp := if_pos h

/-- A pending pin op means a running state, and is the one of the row. -/
theorem State.running_of_opAt {s : State} {op : PinOp} (h : s.opAt = some op) :
    s.st.running = true ∧ s.rowOp = op := by
  unfold State.opAt at h
  split at h
  · exact ⟨‹_›, Option.some.inj h⟩
  · cases h

/-- Inside the row, the pending pin op is the row's (R215). -/
theorem State.opAt_eq_row {s : State} (h : s.st.running = true) (hs : s.sub.toNat < s.opRow.length) :
    s.opAt = s.opRow[s.sub.toNat]? := by
  rw [State.opAt_of_running h, State.rowOp, List.getElem?_eq_getElem hs, Option.getD_some]

theorem State.opAt_start {s : State} (h : s.st = .start) (hs : s.sub.toNat < 3) :
    s.opAt = traceStart[s.sub.toNat]? := by
  have hrow : s.opRow = traceStart := by simp [State.opRow, h]
  rw [State.opAt_eq_row (by rw [h]; rfl) (by rw [hrow]; exact hs), hrow]

theorem State.opAt_bit {s : State} (h : s.st = .bit) (hs : s.sub.toNat < 3) :
    s.opAt = (traceWriteBit ((s.q.entry s.bi).getLsbD s.bit.toNat))[s.sub.toNat]? := by
  have hrow : s.opRow = traceWriteBit ((s.q.entry s.bi).getLsbD s.bit.toNat) := by simp [State.opRow, h]
  rw [State.opAt_eq_row (by rw [h]; rfl) (by rw [hrow]; exact hs), hrow]

theorem State.opAt_ack {s : State} (h : s.st = .ack) (hs : s.sub.toNat < 3) :
    s.opAt = traceSkipAck[s.sub.toNat]? := by
  have hrow : s.opRow = traceSkipAck := by simp [State.opRow, h]
  rw [State.opAt_eq_row (by rw [h]; rfl) (by rw [hrow]; exact hs), hrow]

theorem State.opAt_stop {s : State} (h : s.st = .stop) : s.opAt = traceStop[s.sub.toNat]? := by
  have hrow : s.opRow = traceStop := by simp [State.opRow, h]
  rw [State.opAt_eq_row (by rw [h]; rfl) (by rw [hrow]; exact s.sub.isLt), hrow]

/-! ### The step -/

/-- An edge with `RST = 1` (R218 case 1). -/
theorem step_reset {s : State} (h : s.portIn.rst = true) : step s = .next s.takeInput.resetEdge := by
  simp [step, State.action, h, perform]

/-- An idle edge with an offer (R218 case 2). -/
theorem step_accept {s : State} (h : s.portIn.rst = false) (hi : s.st = .idle)
    (hv : s.portIn.cmdValid = true) :
    step s = exec (decodeCommand s.portIn.cmdWord) s.takeInput := by
  simp [step, State.action, h, hi, hv, perform]

/-- An idle edge without an offer (R218 case 3). -/
theorem step_hold {s : State} (h : s.portIn.rst = false) (hi : s.st = .idle)
    (hv : s.portIn.cmdValid = false) : step s = .next s.takeInput := by
  simp [step, State.action, h, hi, hv, perform]

/-- A counting edge (R218 case 4). -/
theorem step_count {s : State} (h : s.portIn.rst = false) (hr : s.st.running = true ∨ s.st = .done)
    (hd : s.dly ≠ 0) : step s = .next s.takeInput.countDown := by
  unfold step State.action State.runningAction
  cases hst : s.st <;> simp_all [FsmState.running, perform]

/-- A running edge with `dly = 0` (R218 case 5). -/
theorem step_perform {s : State} {op : PinOp} (h : s.portIn.rst = false) (hd : s.dly = 0)
    (ho : s.opAt = some op) :
    step s = .next ((s.takeInput.setLine op.line op.level).moveTo s.nextPos) := by
  obtain ⟨hr, rfl⟩ := State.running_of_opAt ho
  unfold step State.action State.runningAction
  cases hst : s.st <;> simp_all [FsmState.running, perform, exec, execSetLine]

/-- The end of a command (R218 case 6). -/
theorem step_finish {s : State} (h : s.portIn.rst = false) (hi : s.st = .done) (hd : s.dly = 0) :
    step s = .next s.takeInput.toIdle := by
  simp [step, State.action, h, hi, hd, perform]

/-- Recovery of an unused encoding (R218 case 7). -/
theorem step_recover {s : State} (h : s.portIn.rst = false)
    (hi : s.st = .unused6 ∨ s.st = .unused7) : step s = .next s.takeInput.toIdle := by
  rcases hi with hi | hi <;> simp [step, State.action, h, hi, perform]

/-- Executing a decoded command word in `IDLE` loads a queue or, for a reserved word, changes
nothing. -/
theorem exec_decodeCommand (word : Word) (s : State) :
    exec (decodeCommand word) s = .next s ∨
      (∃ level, exec (decodeCommand word) s = .next (s.acceptQueue (brightnessQueue level))) ∨
      ∃ sep n chars, n ≤ 4 ∧
        exec (decodeCommand word) s = .next (s.acceptQueue (textQueue sep n chars)) := by
  unfold decodeCommand
  split
  · exact .inr (.inl ⟨_, rfl⟩)
  · split
    · exact .inr (.inr ⟨_, _, _, Nat.min_le_right _ _, rfl⟩)
    · split
      · exact .inr (.inr ⟨_, charCount 4, _, Nat.min_le_right _ _, rfl⟩)
      · exact .inl rfl

/-- Everything an edge can do when it answers a next state. -/
theorem step_cases {s t : State} (h : step s = .next t) :
    (s.portIn.rst = true ∧ t = s.takeInput.resetEdge) ∨
    (s.portIn.rst = false ∧ s.st = .idle ∧
      (t = s.takeInput ∨ (∃ level, t = s.takeInput.loadQueue (brightnessQueue level)) ∨
        ∃ sep n chars, n ≤ 4 ∧ t = s.takeInput.loadQueue (textQueue sep n chars))) ∨
    (s.portIn.rst = false ∧ (s.st.running = true ∨ s.st = .done) ∧ s.dly ≠ 0 ∧
      t = s.takeInput.countDown) ∨
    (s.portIn.rst = false ∧ s.dly = 0 ∧ ∃ op, s.opAt = some op ∧
      t = (s.takeInput.setLine op.line op.level).moveTo s.nextPos) ∨
    (s.portIn.rst = false ∧ (s.st = .done ∧ s.dly = 0 ∨ s.st = .unused6 ∨ s.st = .unused7) ∧
      t = s.takeInput.toIdle) := by
  by_cases hrst : s.portIn.rst = true
  · rw [step_reset hrst] at h
    cases h
    exact .inl ⟨hrst, rfl⟩
  have hrst : s.portIn.rst = false := by simpa using hrst
  right
  by_cases hi : s.st = .idle
  · left
    refine ⟨hrst, hi, ?_⟩
    by_cases hv : s.portIn.cmdValid = true
    · rw [step_accept hrst hi hv] at h
      have hacc : ∀ c, s.takeInput.acceptQueue c = s.takeInput.loadQueue c := fun c => by
        simp [State.acceptQueue, hi]
      obtain he | ⟨level, he⟩ | ⟨sep, n, chars, hn, he⟩ :=
        exec_decodeCommand s.portIn.cmdWord s.takeInput
      · rw [he] at h; cases h; exact .inl rfl
      · rw [he, hacc] at h; cases h; exact .inr (.inl ⟨level, rfl⟩)
      · rw [he, hacc] at h; cases h; exact .inr (.inr ⟨sep, n, chars, hn, rfl⟩)
    · rw [step_hold hrst hi (by simpa using hv)] at h
      cases h
      exact .inl rfl
  right
  by_cases hu : s.st = .unused6 ∨ s.st = .unused7
  · rw [step_recover hrst hu] at h
    cases h
    exact .inr (.inr ⟨hrst, .inr hu, rfl⟩)
  have hrun : s.st.running = true ∨ s.st = .done := by
    cases hst : s.st <;> simp_all [FsmState.running]
  by_cases hd : s.dly = 0
  · right
    rcases hrun with hrun | hdone
    · left
      have ho := State.opAt_of_running hrun
      rw [step_perform hrst hd ho] at h
      cases h
      exact ⟨hrst, hd, _, ho, rfl⟩
    · right
      rw [step_finish hrst hdone hd] at h
      cases h
      exact ⟨hrst, .inl ⟨hdone, hd⟩, rfl⟩
  · left
    rw [step_count hrst hrun hd] at h
    cases h
    exact ⟨hrst, hrun, hd, rfl⟩

end Sys2Proof.Machine
end

