-- ==== Sys2Proof/Laws/PerInstr.lean ====
section
/-!
SUPPORT. The family RoundTrip: one lemma for each constructor of `Instr`.
-/

namespace Sys2Proof.Laws.RoundTrip

/-- An instruction with an encoding decodes back to its core instruction; an internal primitive has no
encoding. -/
def Statement (i : Instr) : Prop :=
  i.wellFormed = true →
    (i.isPrimitive = true ∧ encode i = none) ∨
      (i.isPrimitive = false ∧ ∃ c, encode i = some c ∧ decode c = .ok i.core)

/-- A command word that decodes to the core instruction is enough. -/
theorem of_command {i : Instr} {w : Word} (hp : i.isPrimitive = false)
    (he : encode i = some (.command w)) (hd : decodeCommand w = i.core) : Statement i :=
  fun _ => .inr ⟨hp, _, he, by rw [decode, hd]⟩

/-- A wire byte that decodes to the core instruction is enough. -/
theorem of_wire {i : Instr} {pos : WirePos} {b : Byte} (hp : i.isPrimitive = false)
    (he : encode i = some (.wire pos b)) (hd : decodeWire pos b = .ok i.core) : Statement i :=
  fun _ => .inr ⟨hp, _, he, hd⟩

/-- An internal primitive has no code. -/
theorem of_primitive {i : Instr} (hp : i.isPrimitive = true) (he : encode i = none) : Statement i :=
  fun _ => .inl ⟨hp, he⟩

theorem setBrightness (level : BitVec 4) : Statement (.setBrightness level) :=
  of_command rfl rfl (decodeCommand_encBright level)

theorem displayText (sep : Bool) (len c0 c1 c2 c3 : Byte) :
    Statement (.displayText sep len c0 c1 c2 c3) :=
  of_command rfl rfl (decodeCommand_encText sep len c0 c1 c2 c3)

theorem displayNumber (sep : Bool) (value : Half) : Statement (.displayNumber sep value) :=
  of_command rfl rfl (decodeCommand_encNum sep value)

theorem reserved : Statement .reserved := of_command rfl rfl decodeCommand_encRsvd

theorem texts (sep : Bool) (str : List Byte) : Statement (.texts sep str) :=
  of_command rfl rfl (decodeCommand_encText _ _ _ _ _ _)

theorem off : Statement .off := of_command rfl rfl (decodeCommand_encBright 0)

theorem setLine (line : Line) (level : Bool) : Statement (.setLine line level) := of_primitive rfl rfl

theorem start : Statement .start := of_primitive rfl rfl

theorem stop : Statement .stop := of_primitive rfl rfl

theorem skipAck : Statement .skipAck := of_primitive rfl rfl

theorem writeBit (v : Bool) : Statement (.writeBit v) := of_primitive rfl rfl

theorem writeByte (b : Byte) : Statement (.writeByte b) := of_primitive rfl rfl

theorem lutRead (c : Byte) : Statement (.lutRead c) := of_primitive rfl rfl

theorem wireBrightnessDisabled : Statement .wireBrightnessDisabled := of_wire rfl rfl rfl

theorem wireBrightnessLevel (x : BitVec 3) : Statement (.wireBrightnessLevel x) :=
  of_wire rfl rfl (decodeWire_levelByte x)

theorem wireDataMode : Statement .wireDataMode := of_wire rfl rfl rfl

theorem wireAddress0 : Statement .wireAddress0 := of_wire rfl rfl rfl

theorem wireSegment (pattern : Byte) : Statement (.wireSegment pattern) := of_wire rfl rfl rfl

end Sys2Proof.Laws.RoundTrip
end

