-- ==== Sys2Proof/Laws/Run.lean ====
section
/-!
SUPPORT. Runs of edges. `Walk ops s t` says which pin ops the FSM performs from `s` and where it then
stands, with time left out; `walk_runs` puts the time back: one pin op every `SETTLE_CYCLES` edges.
-/

namespace Sys2Proof.Machine

/-! ### Runs and inputs -/

@[simp] theorem runsTo_zero {s t : State} : runsTo 0 s t ↔ t = s := by
  simp only [runsTo, Host.Core.run]
  exact ⟨fun h => (Host.Outcome.next.inj h).symm, fun h => h ▸ rfl⟩

theorem runsTo_succ {n : Nat} {s u t : State} (h : step s = .next u) (h' : runsTo n u t) :
    runsTo (n + 1) s t := by
  have : Sys2Proof.core.step s = .next u := h
  simp only [runsTo, Host.Core.run, this]
  exact h'

theorem runsTo_add {m n : Nat} {s u t : State} (h : runsTo m s u) (h' : runsTo n u t) :
    runsTo (m + n) s t := by
  induction m generalizing s with
  | zero => rw [runsTo_zero] at h; subst h; simpa using h'
  | succ m ih =>
    simp only [runsTo, Host.Core.run] at h
    split at h
    · rename_i v hv
      rw [Nat.succ_add]
      exact runsTo_succ hv (ih h)
    · cases h
    · cases h

theorem noReset_succ {n : Nat} {s : State} :
    noReset (n + 1) s ↔ s.portIn.rst = false ∧ noReset n s.takeInput := by
  cases hs : s.inputs <;> simp [noReset, State.portIn, State.takeInput, PortIn.quiet, hs]

/-- `noReset` looks at the inputs alone. -/
theorem noReset_congr {n : Nat} {s t : State} (h : t.inputs = s.inputs) :
    noReset n t ↔ noReset n s := by
  simp [noReset, h]

theorem noReset_add {m n : Nat} {s : State} (h : noReset (m + n) s) :
    noReset m s ∧ ∀ t : State, t.inputs = s.inputs.drop m → noReset n t := by
  unfold noReset at *
  refine ⟨fun p hp => h p ?_, fun t ht p hp => h p ?_⟩
  · exact List.take_subset_take_left _ (Nat.le_add_right m n) hp
  · rw [ht] at hp
    rw [List.take_add]
    exact List.mem_append_right _ hp

/-! ### Waiting -/

/-- `j` counting edges (R102). -/
theorem wait_runs {j : Nat} {s : State} (hr : s.st.running = true ∨ s.st = .done) (hj : j ≤ s.dly.toNat)
    (hn : noReset j s) :
    runsTo j s { s with dly := BitVec.ofNat Config.dlyW (s.dly.toNat - j), inputs := s.inputs.drop j } := by
  induction j generalizing s with
  | zero => simp
  | succ j ih =>
    obtain ⟨h0, hn⟩ := noReset_succ.1 hn
    have hd : s.dly ≠ 0 := fun h => by
      rw [h] at hj
      simp at hj
    have hpred : s.takeInput.countDown.dly.toNat = s.dly.toNat - 1 := Config.toNat_delay_sub_one hd
    refine runsTo_succ (step_count h0 hr hd) ?_
    have := ih (s := s.takeInput.countDown) (by simpa using hr) (by omega)
      ((noReset_congr (by simp)).1 hn)
    have he : ({ s with
          dly := BitVec.ofNat Config.dlyW (s.dly.toNat - (j + 1)), inputs := s.inputs.drop (j + 1) } : State) =
        { s.takeInput.countDown with
          dly := BitVec.ofNat Config.dlyW (s.takeInput.countDown.dly.toNat - j)
          inputs := s.takeInput.countDown.inputs.drop j } := by
      rw [hpred]
      simp [State.takeInput, State.countDown, Nat.sub_sub, Nat.add_comm]
    rw [he]
    exact this

/-! ### Walks -/

/-- The state after the pending pin op, with its settle interval over. -/
def State.advance (op : PinOp) (s : State) : State :=
  { (s.setLine op.line op.level).moveTo s.nextPos with dly := 0 }

/-- From `s` the FSM performs exactly `ops`, and then stands at `t`. -/
def Walk : List PinOp → State → State → Prop
  | [], s, t => t = s
  | op :: ops, s, t => s.opAt = some op ∧ Walk ops (s.advance op) t

theorem Walk.append {as bs : List PinOp} {s u t : State} (h : Walk as s u) (h' : Walk bs u t) :
    Walk (as ++ bs) s t := by
  induction as generalizing s with
  | nil => cases h; exact h'
  | cons op as ih => exact ⟨h.1, ih h.2⟩

/-- The part of a walk that performs its first `k` pin ops; while more remain, one is pending. -/
theorem Walk.take {ops : List PinOp} {s t : State} (h : Walk ops s t) (k : Nat) :
    ∃ u, Walk (ops.take k) s u ∧ (k < ops.length → ∃ op, u.opAt = some op) ∧
      (ops.length ≤ k → u = t) := by
  induction ops generalizing s k with
  | nil => exact ⟨s, by simp [Walk], by simp, fun _ => h.symm⟩
  | cons op ops ih =>
    cases k with
    | zero => exact ⟨s, rfl, fun _ => ⟨op, h.1⟩, by simp⟩
    | succ k =>
      obtain ⟨u, hu, hlt, hge⟩ := ih h.2 k
      exact ⟨u, ⟨h.1, hu⟩, by simpa using hlt, by simpa using hge⟩

/-- What a walk changes: the lines, `W` and the FSM position. -/
theorem Walk.eq {ops : List PinOp} {s t : State} (h : Walk ops s t) (hd : s.dly = 0) :
    t = { s with
      st := t.st, sub := t.sub, bit := t.bit, bi := t.bi
      clkO := (levelsAfter ops (s.clkO, s.datO)).1
      datO := (levelsAfter ops (s.clkO, s.datO)).2
      w := s.w ++ ops.map .pin } := by
  induction ops generalizing s with
  | nil => cases h; simp
  | cons op ops ih =>
    rw [ih h.2 rfl]
    simp [State.advance, State.moveTo, State.setLine_eq, hd]

/-- After a pin op the block is running or in `DONE` (R216). -/
theorem State.nextPos_running {s : State} (h : s.st.running = true) :
    s.nextPos.st.running = true ∨ s.nextPos.st = .done := by
  cases hst : s.st <;> simp only [hst, FsmState.running, Bool.false_eq_true] at h <;>
    simp only [State.nextPos, hst] <;> (repeat' split_ifs) <;> simp [FsmState.running]

/-- One pin op and `r - 1` edges of its settle interval. -/
theorem advance_runs {op : PinOp} {s : State} {r : Nat} (ho : s.opAt = some op) (hd : s.dly = 0)
    (h1 : 1 ≤ r) (hr : r ≤ Config.settleCycles) (hn : noReset r s) :
    runsTo r s
      { s.advance op with
        dly := BitVec.ofNat Config.dlyW (Config.settleCycles - r), inputs := s.inputs.drop r } := by
  obtain ⟨r, rfl⟩ : ∃ m, r = m + 1 := ⟨r - 1, by omega⟩
  obtain ⟨h0, hn⟩ := noReset_succ.1 hn
  refine runsTo_succ (step_perform h0 hd ho) ?_
  have hload : ((s.takeInput.setLine op.line op.level).moveTo s.nextPos).dly.toNat =
      Config.settleCycles - 1 := by
    rw [State.moveTo_dly, State.setLine_dly, Config.toNat_load]
  have hw := wait_runs (j := r) (s := (s.takeInput.setLine op.line op.level).moveTo s.nextPos)
    (by simpa using State.nextPos_running (State.running_of_opAt ho).1) (by omega)
    ((noReset_congr (by simp)).1 hn)
  rw [hload] at hw
  have he : ({ s.advance op with
        dly := BitVec.ofNat Config.dlyW (Config.settleCycles - (r + 1))
        inputs := s.inputs.drop (r + 1) } : State) =
      { (s.takeInput.setLine op.line op.level).moveTo s.nextPos with
        dly := BitVec.ofNat Config.dlyW (Config.settleCycles - 1 - r)
        inputs := ((s.takeInput.setLine op.line op.level).moveTo s.nextPos).inputs.drop r } := by
    simp [State.advance, State.moveTo, State.setLine_eq, State.takeInput, Nat.sub_sub, Nat.add_comm]
  rw [he]
  exact hw

/-- `opAt` and `nextPos` do not look at the inputs. -/
theorem Walk.withInputs {ops : List PinOp} {s t : State} (h : Walk ops s t) (i : List PortIn) :
    Walk ops { s with inputs := i } { t with inputs := i } := by
  induction ops generalizing s with
  | nil => cases h; rfl
  | cons op ops ih =>
    have he : ({ s with inputs := i } : State).advance op = { s.advance op with inputs := i } := by
      obtain ⟨line, v⟩ := op
      cases line <;> rfl
    exact ⟨h.1, he ▸ ih h.2⟩

/-- A walk in time (R103, R222): after the first edge of its last pin op's settle interval and `r - 1`
more. -/
theorem walk_runs {ops : List PinOp} {s t : State} {r : Nat} (h : Walk ops s t) (hne : ops ≠ [])
    (hd : s.dly = 0) (h1 : 1 ≤ r) (hr : r ≤ Config.settleCycles)
    (hn : noReset ((ops.length - 1) * Config.settleCycles + r) s) :
    runsTo ((ops.length - 1) * Config.settleCycles + r) s
      { t with
        dly := BitVec.ofNat Config.dlyW (Config.settleCycles - r)
        inputs := s.inputs.drop ((ops.length - 1) * Config.settleCycles + r) } := by
  induction ops generalizing s t with
  | nil => exact absurd rfl hne
  | cons op ops ih =>
    cases ops with
    | nil =>
      have ht : t = s.advance op := h.2
      subst ht
      simpa using advance_runs h.1 hd h1 hr (by simpa using hn)
    | cons op' ops =>
      have hlen : (op :: op' :: ops).length - 1 = (op' :: ops).length - 1 + 1 := by simp
      have hsum : ((op :: op' :: ops).length - 1) * Config.settleCycles + r =
          Config.settleCycles + (((op' :: ops).length - 1) * Config.settleCycles + r) := by
        rw [hlen, Nat.add_mul]; omega
      rw [hsum] at hn ⊢
      obtain ⟨hn1, hn2⟩ := noReset_add hn
      have hfirst := advance_runs h.1 hd (r := Config.settleCycles) Config.settleCycles_pos
        (Nat.le_refl _) hn1
      refine runsTo_add hfirst ?_
      have he : ({ s.advance op with
          dly := BitVec.ofNat Config.dlyW (Config.settleCycles - Config.settleCycles)
          inputs := s.inputs.drop Config.settleCycles } : State) =
          { s.advance op with inputs := s.inputs.drop Config.settleCycles } := by
        simp [State.advance]
      rw [he]
      have := ih (h.2.withInputs (s.inputs.drop Config.settleCycles)) (by simp) rfl
        (hn2 { s.advance op with inputs := s.inputs.drop Config.settleCycles } rfl)
      simpa [List.drop_drop] using this

end Sys2Proof.Machine
end

