-- ==== Sys2Proof/Laws/Walk.lean ====
section
/-!
SUPPORT. The walk of each primitive (R215, R216): START, WRITE_BIT, SKIP_ACK and STOP from their first
step to the FSM position after their last, and WRITE_BYTE as eight bits.
-/

namespace Sys2Proof.Machine

/-- The state after pin ops, with the FSM at `p` and no delay running. -/
def State.after (ops : List PinOp) (p : FsmPos) (s : State) : State :=
  { s with
    st := p.st, sub := p.sub, bit := p.bit, bi := p.bi, dly := 0
    clkO := (levelsAfter ops (s.clkO, s.datO)).1
    datO := (levelsAfter ops (s.clkO, s.datO)).2
    w := s.w ++ ops.map .pin }

theorem State.after_after (as bs : List PinOp) (p p' : FsmPos) (s : State) :
    (s.after as p).after bs p' = s.after (as ++ bs) p' := by
  simp [State.after, levelsAfter_append]

theorem State.advance_eq_after (op : PinOp) (s : State) : s.advance op = s.after [op] s.nextPos := by
  simp [State.advance, State.after, State.setLine_eq, State.moveTo]

@[simp] theorem State.after_pos (ops : List PinOp) (p : FsmPos) (s : State) :
    (s.after ops p).pos = p := rfl

@[simp] theorem State.after_q (ops : List PinOp) (p : FsmPos) (s : State) :
    (s.after ops p).q = s.q := rfl

@[simp] theorem State.after_qlen (ops : List PinOp) (p : FsmPos) (s : State) :
    (s.after ops p).qlen = s.qlen := rfl

@[simp] theorem State.after_brk (ops : List PinOp) (p : FsmPos) (s : State) :
    (s.after ops p).brk = s.brk := rfl

/-- One pin op of a walk, given the pin op and the successor. -/
theorem Walk.cons {op : PinOp} {ops : List PinOp} {s t : State} {p : FsmPos} (ho : s.opAt = some op)
    (hp : s.nextPos = p) (h : Walk ops (s.after [op] p) t) : Walk (op :: ops) s t := by
  refine ⟨ho, ?_⟩
  rw [State.advance_eq_after, hp]
  exact h

variable {s : State}

/-- START leads to the first bit of the frame's first byte. -/
theorem walk_start (hst : s.st = .start) (hsub : s.sub = 0) :
    Walk traceStart s (s.after traceStart ⟨.bit, 0, 0, s.bi⟩) := by
  refine Walk.cons (p := ⟨.start, 1, s.bit, s.bi⟩) ?_ ?_ (Walk.cons (p := ⟨.start, 2, s.bit, s.bi⟩) ?_ ?_
    (Walk.cons (p := ⟨.bit, 0, 0, s.bi⟩) ?_ ?_ ?_))
  · rw [State.opAt_start hst (by simp [hsub]), hsub]; rfl
  · simp [State.nextPos, hst, hsub]
  · simp [State.opAt, State.rowOp, State.opRow, State.after, FsmState.running, traceStart]
  · simp [State.nextPos, State.after]
  · simp [State.opAt, State.rowOp, State.opRow, State.after, FsmState.running, traceStart]
  · simp [State.nextPos, State.after]
  · simp [Walk, State.after_after, traceStart]

/-- WRITE_BIT leads to the next bit, or after bit 7 to the acknowledgment. -/
theorem walk_bit {b : Byte} (hst : s.st = .bit) (hsub : s.sub = 0) (hb : s.q.entry s.bi = b) :
    Walk (traceWriteBit (b.getLsbD s.bit.toNat)) s
      (s.after (traceWriteBit (b.getLsbD s.bit.toNat))
        (if s.bit.toNat < 7 then ⟨.bit, 0, s.bit + 1, s.bi⟩ else ⟨.ack, 0, s.bit, s.bi⟩)) := by
  refine Walk.cons (p := ⟨.bit, 1, s.bit, s.bi⟩) ?_ ?_ (Walk.cons (p := ⟨.bit, 2, s.bit, s.bi⟩) ?_ ?_
    (Walk.cons ?_ rfl ?_))
  · rw [State.opAt_bit hst (by simp [hsub]), hsub, hb]; rfl
  · simp [State.nextPos, hst, hsub]
  · simp [State.opAt, State.rowOp, State.opRow, State.after, FsmState.running, hb, traceWriteBit]
  · simp [State.nextPos, State.after]
  · simp [State.opAt, State.rowOp, State.opRow, State.after, FsmState.running, hb, traceWriteBit]
  · simp [Walk, traceWriteBit, State.nextPos, State.after]

/-- SKIP_ACK leads to the stop or to the next byte of the frame. -/
theorem walk_ack (hst : s.st = .ack) (hsub : s.sub = 0) :
    Walk traceSkipAck s
      (s.after traceSkipAck
        (if s.closesFrame then ⟨.stop, 0, s.bit, s.bi⟩ else ⟨.bit, 0, 0, s.nextIndex⟩)) := by
  refine Walk.cons (p := ⟨.ack, 1, s.bit, s.bi⟩) ?_ ?_ (Walk.cons (p := ⟨.ack, 2, s.bit, s.bi⟩) ?_ ?_
    (Walk.cons (p := if s.closesFrame then ⟨.stop, 0, s.bit, s.bi⟩ else ⟨.bit, 0, 0, s.nextIndex⟩) ?_ rfl ?_))
  · rw [State.opAt_ack hst (by simp [hsub]), hsub]; rfl
  · simp [State.nextPos, hst, hsub]
  · simp [State.opAt, State.rowOp, State.opRow, State.after, FsmState.running, traceSkipAck]
  · simp [State.nextPos, State.after]
  · simp [State.opAt, State.rowOp, State.opRow, State.after, FsmState.running, traceSkipAck]
  · simp [Walk, traceSkipAck, State.after_after]

/-- STOP leads to the next frame's start, or after the last byte to `DONE`. -/
theorem walk_stop (hst : s.st = .stop) (hsub : s.sub = 0) :
    Walk traceStop s
      (s.after traceStop
        (if s.moreBytes then ⟨.start, 0, s.bit, s.nextIndex⟩
          else ⟨.done, 0, s.bit, s.bi⟩)) := by
  refine Walk.cons (p := ⟨.stop, 1, s.bit, s.bi⟩) ?_ ?_ (Walk.cons (p := ⟨.stop, 2, s.bit, s.bi⟩) ?_ ?_
    (Walk.cons (p := ⟨.stop, 3, s.bit, s.bi⟩) ?_ ?_ (Walk.cons
      (p := if s.moreBytes then ⟨.start, 0, s.bit, s.nextIndex⟩ else ⟨.done, 0, s.bit, s.bi⟩) ?_ rfl ?_)))
  · rw [State.opAt_stop hst, hsub]; rfl
  · simp [State.nextPos, hst, hsub]
  · simp [State.opAt, State.rowOp, State.opRow, State.after, FsmState.running, traceStop]
  · simp [State.nextPos, State.after]
  · simp [State.opAt, State.rowOp, State.opRow, State.after, FsmState.running, traceStop]
  · simp [State.nextPos, State.after]
  · simp [State.opAt, State.rowOp, State.opRow, State.after, FsmState.running, traceStop]
  · simp [Walk, traceStop, State.after_after]

/-- The bits from bit `7 - n` on lead to the acknowledgment. -/
theorem walk_bits {b : Byte} (n : Nat) (hn : n ≤ 7) (hst : s.st = .bit) (hsub : s.sub = 0)
    (hbit : s.bit.toNat = 7 - n) (hb : s.q.entry s.bi = b) :
    Walk ((List.range' (7 - n) (n + 1)).flatMap fun i => traceWriteBit (b.getLsbD i)) s
      (s.after ((List.range' (7 - n) (n + 1)).flatMap fun i => traceWriteBit (b.getLsbD i))
        ⟨.ack, 0, 7, s.bi⟩) := by
  induction n generalizing s with
  | zero =>
    have h7 : s.bit = 7 := BitVec.eq_of_toNat_eq (by simpa using hbit)
    simpa [h7] using walk_bit hst hsub hb
  | succ n ih =>
    have hnext : (s.bit + 1).toNat = 7 - n := by
      rw [BitVec.toNat_add, hbit]
      have : (1 : BitVec 3).toNat = 1 := rfl
      omega
    have hw1 := walk_bit hst hsub hb
    rw [if_pos (by omega)] at hw1
    have hw2 := ih (s := s.after (traceWriteBit (b.getLsbD s.bit.toNat)) ⟨.bit, 0, s.bit + 1, s.bi⟩)
      (by omega) rfl rfl hnext hb
    rw [State.after_after] at hw2
    have hs : 7 - (n + 1) + 1 = 7 - n := by omega
    rw [List.range'_succ, List.flatMap_cons, hs, ← hbit]
    exact hw1.append hw2

/-- WRITE_BYTE: from bit 0 of a byte to its acknowledgment. -/
theorem walk_byte {b : Byte} (hst : s.st = .bit) (hsub : s.sub = 0) (hbit : s.bit = 0)
    (hb : s.q.entry s.bi = b) :
    Walk (traceWriteByte b) s (s.after (traceWriteByte b) ⟨.ack, 0, 7, s.bi⟩) := by
  have h := walk_bits 7 (Nat.le_refl _) hst hsub (by rw [hbit]; rfl) hb
  rwa [Nat.sub_self, ← List.range_eq_range'] at h

end Sys2Proof.Machine
end

