-- ==== Sys2Proof/Tests/Slice0.lean ====
section
/-!
SUPPORT. Tests: each expected value is from spec/95_test_vectors.md (V<n>) or an encoding of
spec/30_encoding.md. Witnesses: for each statement with hypotheses, states and operands that meet them.
-/

open Sys2Proof Sys2Proof.Machine

namespace Sys2Proof.Tests

/-! ### Small states -/

/-- The reset state with the given inputs to come. -/
def withInputs (ins : List PortIn) : State := { State.reset with inputs := ins }

/-- The reset state with one word offered at the next edge. -/
def offered (word : Word) : State := withInputs [⟨false, true, word⟩]

/-- A state of the command `BRIGHT 3` (V70: `Q[0] = 0x8A`, `qlen = 1`). -/
def bright3 (st : FsmState) (sub : BitVec 2) (bit : BitVec 3) (clk dat : Bool) : State :=
  { State.reset with
    st := st, sub := sub, bit := bit
    q := ⟨0x8A, 0, 0, 0, 0, 0⟩, qlen := 1
    clkO := clk, datO := dat
    w := [.pin ⟨.clk, clk⟩, .pin ⟨.dat, dat⟩] }

/-- The queue an accepted command left in a state: its valid bytes and the frame break. -/
def queueOf : Host.Outcome State Fault Refusal → Option (List Byte × Bool)
  | .next t => some (t.q.toList.take t.qlen.toNat, t.brk)
  | _ => none

/-- The trace and the line levels of the next state. -/
def wireOf : Host.Outcome State Fault Refusal → Option (List Obs × Bool × Bool)
  | .next t => some (t.w, t.clkO, t.datO)
  | _ => none

/-- The FSM position and the line levels of the next state. -/
def fsmOf : Host.Outcome State Fault Refusal → Option (FsmPos × Bool × Bool)
  | .next t => some (t.pos, t.clkO, t.datO)
  | _ => none

/-- The data levels of a byte's trace, one for each bit in the order sent. -/
def dataLevels (ops : List PinOp) : List Bool :=
  (ops.filter fun op => op.line = .dat).map (·.level)

/-! ### WellFormed -/

/-- An ill-formed term: a quoted character that is not ASCII (R98). -/
theorem test_texts_with_a_non_ascii_character_is_refused :
    (Instr.texts false [0x41, 0xC1]).wellFormed = false := by decide

theorem test_texts_at_the_last_ascii_code_is_accepted :
    (Instr.texts true [0x41, 0x7F]).wellFormed = true := by decide

/-! ### Decoding: words written out from R80 to R89 and R91 to R95 -/

/-- V36 to V38: `LEVEL` at bits 11:8. -/
theorem test_decode_brightness :
    decodeCommand 0x0000000000000000#64 = .setBrightness 0 ∧
      decodeCommand 0x0000000000000300#64 = .setBrightness 3 ∧
      decodeCommand 0x0000000000000F00#64 = .setBrightness 15 := by decide

/-- V39: every other bit is ignored. -/
theorem test_decode_brightness_ignores_other_bits :
    decodeCommand 0xFFFFFFFFFFFFF3F0#64 = .setBrightness 3 := by decide

/-- V44: `SEP` at bit 2, `LEN` at bits 23:16, characters from bit 32. -/
theorem test_decode_text :
    decodeCommand 0x0000424100020005#64 = .displayText true 2 0x41 0x42 0 0 := by decide

/-- V48. -/
theorem test_decode_text_lanes :
    decodeCommand 0xB4B0C2C100FF0001#64 = .displayText false 255 0xC1 0xC2 0xB0 0xB4 := by decide

/-- V52, V61, V64. -/
theorem test_decode_number :
    decodeCommand 0x0000002A00000002#64 = .displayNumber false 42 ∧
      decodeCommand 0x0000303900000006#64 = .displayNumber true 12345 ∧
      decodeCommand 0xFFFF002A00000002#64 = .displayNumber false 42 := by decide

/-- V65, V66. -/
theorem test_decode_reserved :
    decodeCommand 0x0000000000000003#64 = .reserved ∧
      decodeCommand 0xFFFFFFFFFFFFFFFF#64 = .reserved := by decide

/-- R99: the words of the pseudo-instructions are their core instructions'. -/
theorem test_pseudo_instructions_encode :
    encode (.texts true [0x41, 0x42]) = some (.command 0x0000424100020005#64) ∧
      encode .off = some (.command 0#64) := by decide

/-- R89: the words assembled from the spec's examples. -/
theorem test_encode_commands :
    encode (.setBrightness 3) = some (.command 0x0000000000000300#64) ∧
      encode (.displayText true 4 0x30 0x32 0x34 0x41) = some (.command 0x4134323000040005#64) ∧
      encode (.displayNumber true 2040) = some (.command 0x000007F800000006#64) ∧
      encode .reserved = some (.command 3#64) := by decide

/-- R91 to R94, by position: `0x87`, `0x88`, `0x8F`, `0x40`, `0xC0`. -/
theorem test_decode_first_wire_bytes :
    decodeWire .first 0x87#8 = .ok .wireBrightnessDisabled ∧
      decodeWire .first 0x88#8 = .ok (.wireBrightnessLevel 0) ∧
      decodeWire .first 0x8F#8 = .ok (.wireBrightnessLevel 7) ∧
      decodeWire .first 0x40#8 = .ok .wireDataMode ∧
      decodeWire .first 0xC0#8 = .ok .wireAddress0 := by decide

/-- R96: the neighbours of the legal first bytes are rejected by name. -/
theorem test_decode_rejects_other_first_bytes :
    decodeWire .first 0x86#8 = .error (.notAFirstByte 0x86) ∧
      decodeWire .first 0x90#8 = .error (.notAFirstByte 0x90) ∧
      decodeWire .first 0x44#8 = .error (.notAFirstByte 0x44) := by decide

/-- R95: any value in a data position. -/
theorem test_decode_data_bytes :
    decodeWire .data 0xC0#8 = .ok (.wireSegment 0xC0) ∧
      decodeWire .data 0xFC#8 = .ok (.wireSegment 0xFC) := by decide

/-- The internal primitives have no encoding (opcode_table.json: "encoding none"). -/
theorem test_primitives_have_no_code :
    encode (.setLine .clk true) = none ∧ encode .start = none ∧ encode .stop = none ∧
      encode .skipAck = none ∧ encode (.writeBit true) = none ∧ encode (.writeByte 0x40) = none ∧
      encode (.lutRead 0x41) = none := by decide

theorem test_decode_table_words :
    decodeTableWord 64 0x0000424100020005 = some (.displayText true 2 0x41 0x42 0 0) ∧
      decodeTableWord 8 0x87 = some .wireBrightnessDisabled ∧
      decodeTableWord 8 0x02 = some (.displayNumber false 0) ∧
      decodeTableWord 0 0 = none := by decide

/-- The word placed for the next step is the one it accepts. -/
theorem test_fetched_word_runs :
    queueOf (step (State.reset.withFetchWord 64 0x300)) = some ([0x8A#8], false) := by decide

/-! ### Parameters -/

/-- V2d. -/
theorem test_delay_counter_widths :
    [1, 2, 3, 32, 33, 100].map Config.dlyWidth = [1, 1, 2, 5, 6, 7] := by decide

/-- V2e. -/
theorem test_least_settle_length : Config.minSettle 16000000 1 = 32 := by decide

/-- V30 to V32: the pinned entries and their aliases. -/
theorem test_segments :
    [0x30, 0x32, 0x34, 0x41, 0x42, 0xB0, 0xC1, 0xC2].map seg =
      [0x3F, 0x5B, 0x66, 0x77, 0x7C, 0x3F, 0x77, 0x7C] := by decide

/-! ### Primitives -/

/-- V1 and V2: a level already there is still a pin op. -/
theorem test_set_line :
    wireOf (exec (.setLine .clk false) State.reset) = some ([.pin .c0], false, true) ∧
      wireOf (exec (.setLine .clk true) State.reset) = some ([.pin .c1], true, true) := by decide

/-- V3. -/
theorem test_start :
    wireOf (exec .start State.reset) =
      some ([.pin .c1, .pin .d1, .pin .d0], true, false) := by decide

/-- V4. -/
theorem test_stop :
    wireOf (exec .stop { State.reset with clkO := false, datO := false }) =
      some ([.pin .c0, .pin .d0, .pin .c1, .pin .d1], true, true) := by decide

/-- V5, V5a: the data line keeps its level. -/
theorem test_skip_ack :
    wireOf (exec .skipAck State.reset) =
        some ([.pin .c0, .pin .c1, .pin .c0], false, true) ∧
      wireOf (exec .skipAck { State.reset with datO := false }) =
        some ([.pin .c0, .pin .c1, .pin .c0], false, false) := by decide

/-- V6, V6a. -/
theorem test_write_bit :
    wireOf (exec (.writeBit true) { State.reset with datO := false }) =
        some ([.pin .c0, .pin .d1, .pin .c1], true, true) ∧
      wireOf (exec (.writeBit false) State.reset) =
        some ([.pin .c0, .pin .d0, .pin .c1], true, false) := by decide

/-- V10, V11, V15d: the order of the bits of `0x8A`, `0x40` and `0x77`. -/
theorem test_bit_order :
    dataLevels (traceWriteByte 0x8A#8) = [false, true, false, true, false, false, false, true] ∧
      dataLevels (traceWriteByte 0x40#8) = [false, false, false, false, false, false, true, false] ∧
      dataLevels (traceWriteByte 0x77#8) = [true, true, true, false, true, true, true, false] := by
  decide

/-- V13: `0x01`, all 24 pin ops. -/
theorem test_write_byte :
    wireOf (exec (.writeByte 0x01) State.reset) =
      some (([.c0, .d1, .c1, .c0, .d0, .c1, .c0, .d0, .c1, .c0, .d0, .c1, .c0, .d0, .c1, .c0, .d0, .c1,
        .c0, .d0, .c1, .c0, .d0, .c1] : List PinOp).map .pin, true, false) := by decide

/-- V31, V32. -/
theorem test_lut_read :
    (match exec (.lutRead 0xC1) State.reset with
      | .next t => some t.lutData
      | _ => none) = some 0x77#8 := by decide

/-! ### Wire bytes -/

/-- V20, V21, V22: a byte framed alone; `0xC0` leaves its frame open; a data byte is a byte and a skip
(V23). -/
theorem test_wire_bytes :
    (wireOf (exec (.wireBrightnessLevel 2) State.reset)).map (fun x => decodeTrace x.1) =
        some [[0x8A]] ∧
      (wireOf (exec .wireBrightnessDisabled State.reset)).map (fun x => decodeTrace x.1) =
        some [[0x87]] ∧
      (wireOf (exec .wireDataMode State.reset)).map (fun x => decodeTrace x.1) = some [[0x40]] ∧
      (wireOf (exec .wireAddress0 State.reset)).map (fun x => (x.1.length, x.2)) =
        some (30, false, true) ∧
      (wireOf (exec (.wireSegment 0x77) State.reset)).map (fun x => (x.1.length, x.2)) =
        some (27, false, false) := by decide

/-! ### Commands: the queue at acceptance -/

/-- V36 to V38. -/
theorem test_brightness_bytes :
    [0, 1, 3, 8, 9, 15].map (fun level => queueOf (exec (.setBrightness level) State.reset)) =
      [0x87, 0x88, 0x8A, 0x8F, 0x8F, 0x8F].map (fun b => some ([b], false)) := by decide

/-- V40 to V42: no character, one character, no overlay without a byte 1. -/
theorem test_short_texts :
    queueOf (exec (.displayText false 0 0 0 0 0) State.reset) = some ([0x40, 0xC0], true) ∧
      queueOf (exec (.displayText true 1 0x41 0 0 0) State.reset) =
        some ([0x40, 0xC0, 0x77], true) := by decide

/-- V45, V47, V48: overlay at byte 1 only, truncation to 4, masking. -/
theorem test_long_texts :
    queueOf (exec (.displayText true 3 0x30 0x32 0x34 0) State.reset) =
        some ([0x40, 0xC0, 0x3F, 0xDB, 0x66], true) ∧
      queueOf (exec (.displayText false 5 0x41 0x42 0x30 0x32) State.reset) =
        some ([0x40, 0xC0, 0x77, 0x7C, 0x3F, 0x5B], true) ∧
      queueOf (exec (.displayText false 255 0xC1 0xC2 0xB0 0xB4) State.reset) =
        some ([0x40, 0xC0, 0x77, 0x7C, 0x3F, 0x66], true) := by decide

/-- V52, V55, V59. -/
theorem test_numbers :
    queueOf (exec (.displayNumber false 42) State.reset) =
        some ([0x40, 0xC0, 0x3F, 0x3F, 0x66, 0x5B], true) ∧
      queueOf (exec (.displayNumber true 2040) State.reset) =
        some ([0x40, 0xC0, 0x5B, 0xBF, 0x66, 0x3F], true) ∧
      queueOf (exec (.displayNumber false 10042) State.reset) =
        some ([0x40, 0xC0, 0x3F, 0x3F, 0x66, 0x5B], true) := by decide

/-- V60, V61: the digits 2345, whatever their segments. -/
theorem test_digits : digitChars 12345 = [0x32, 0x33, 0x34, 0x35] := by decide

/-- V65. -/
theorem test_reserved : step (offered 3) = .next State.reset := rfl

/-- R99: `TEXTS 1, "AB"` as V44, `OFF` as V36. -/
theorem test_pseudo_instructions :
    queueOf (exec (.texts true [0x41, 0x42]) State.reset) = some ([0x40, 0xC0, 0x77, 0xFC], true) ∧
      queueOf (exec .off State.reset) = some ([0x87], false) := by decide

/-! ### Single edges -/

/-- V82 and V70 edge 0. -/
theorem test_acceptance_edge :
    fsmOf (step (offered 0x300)) = some (⟨.start, 0, 0, 0⟩, true, true) := by decide

/-- V70 edges 1, 3, 6. -/
theorem test_running_edges :
    fsmOf (step (bright3 .start 0 0 true true)) = some (⟨.start, 1, 0, 0⟩, true, true) ∧
      fsmOf (step (bright3 .start 2 0 true true)) = some (⟨.bit, 0, 0, 0⟩, true, false) ∧
      fsmOf (step (bright3 .bit 2 0 false false)) = some (⟨.bit, 0, 1, 0⟩, true, false) := by decide

/-- V70 edges 27, 30, 34, 35. -/
theorem test_last_edges :
    fsmOf (step (bright3 .bit 2 7 false true)) = some (⟨.ack, 0, 7, 0⟩, true, true) ∧
      fsmOf (step (bright3 .ack 2 7 true true)) = some (⟨.stop, 0, 7, 0⟩, false, true) ∧
      fsmOf (step (bright3 .stop 3 7 true false)) = some (⟨.done, 0, 7, 0⟩, true, true) ∧
      fsmOf (step (bright3 .done 0 7 true true)) = some (⟨.idle, 0, 7, 0⟩, true, true) := by decide

/-- V2a, V71: an edge with `dly = 1` leaves `dly = 0` and performs no pin op. -/
theorem test_counting_edge :
    ∃ t, step { bright3 .bit 0 0 true false with dly := 1 } = .next t ∧ t.dly = 0 ∧ t.w.length = 2 :=
  ⟨_, step_count rfl (.inl rfl) Config.delay_one_ne_zero, BitVec.sub_self _, rfl⟩

/-- V75. -/
theorem test_unused_state :
    step { bright3 .unused6 1 2 true false with dly := 5 } =
      .next { bright3 .idle 1 2 true false with dly := 5 } := rfl

/-- V80, V81, V74: reset wins over an offer, and a second marker is not appended. -/
theorem test_reset_edges :
    step { bright3 .bit 1 2 true true with w := [.pin .c1, .pin .d1], inputs := [⟨true, true, 0x300⟩] } =
        .next { State.reset with w := [.pin .c1, .pin .d1, .rst] } ∧
      step { withInputs [⟨true, false, 0⟩] with w := [.rst] } =
        .next { State.reset with w := [.rst] } := ⟨rfl, rfl⟩

/-- V20 and its decoding. -/
theorem test_frame :
    (frame [0x8A#8]).length = 34 ∧ decodeTrace ((frame [0x8A#8]).map .pin) = [[0x8A]] := by decide

/-! ### Witnesses: states and operands that meet the hypotheses of each statement -/

theorem witness_legal_configuration :
    (0 : ℝ) < 1 ∧ 1 ≤ 1 ∧ ⌈(2 / 1000000 : ℝ) * 1⌉₊ ≤ 1 := by
  refine ⟨one_pos, le_refl 1, ?_⟩
  rw [Nat.ceil_le]
  norm_num

theorem witness_clock_denominator : 0 < 1 ∧ 1 ≤ 1 := ⟨one_pos, le_refl 1⟩

theorem witness_well_formed :
    (Instr.texts true [0x41, 0x42]).wellFormed = true ∧ Instr.stop.wellFormed = true := by decide

/-- CommandsReadOnlyTheirFields, one pair of distinct words for each command. -/
theorem witness_words_that_agree :
    (0x300#64 ≠ 0xFFFFFFFFFFFFF3F0#64 ∧ fieldOp 0x300#64 = fieldOp 0xFFFFFFFFFFFFF3F0#64 ∧
        fieldLevel 0x300#64 = fieldLevel 0xFFFFFFFFFFFFF3F0#64) ∧
      (0x4100010001#64 ≠ 0x12344100010001#64 ∧ fieldOp 0x4100010001#64 = fieldOp 0x12344100010001#64 ∧
        fieldSep 0x4100010001#64 = fieldSep 0x12344100010001#64 ∧
        fieldLen 0x4100010001#64 = fieldLen 0x12344100010001#64 ∧
        ∀ i, i < min (fieldLen 0x4100010001#64).toNat 4 →
          fieldChar 0x4100010001#64 i = fieldChar 0x12344100010001#64 i) ∧
      (0x2A00000002#64 ≠ 0xFFFF002A00000002#64 ∧
        fieldOp 0x2A00000002#64 = fieldOp 0xFFFF002A00000002#64 ∧
        fieldSep 0x2A00000002#64 = fieldSep 0xFFFF002A00000002#64 ∧
        fieldValue 0x2A00000002#64 = fieldValue 0xFFFF002A00000002#64) ∧
      (3#64 ≠ 0xFFFFFFFFFFFFFFFF#64 ∧ fieldOp 3#64 = fieldOp 0xFFFFFFFFFFFFFFFF#64) := by decide

/-- The acceptance statements: an idle state; and a busy one for CommandOffIdleLeavesNoTrace. -/
theorem witness_idle_and_busy :
    State.reset.st = .idle ∧ (bright3 .bit 0 0 true false).st ≠ .idle ∧
      decodeCommand 0x300#64 = .setBrightness 3 := by decide

/-- An idle state with a word offered: a command, and the reserved word. -/
theorem witness_offers :
    (offered 0x300).st = .idle ∧ (offered 0x300).offers 0x300 ∧ (offered 3).st = .idle ∧
      (offered 3).offers 3 ∧ (3#64).extractLsb' 0 2 = 3#2 := by
  refine ⟨rfl, ⟨rfl, rfl, rfl⟩, rfl, ⟨rfl, rfl, rfl⟩, by decide⟩

/-- OffersAreTakenExactlyInIdle, its three clauses: an offer, none, and an edge that takes none. -/
theorem witness_offer_clauses :
    ((offered 0x300).st = .idle ∧ (offered 0x300).portIn = ⟨false, true, 0x300⟩) ∧
      (State.reset.st = .idle ∧ State.reset.portIn = ⟨false, false, 0⟩) ∧
      (bright3 .done 0 7 true true).st ≠ .idle := by decide

theorem witness_data_byte_index : 1 < 4 ∧ 0 < 1 := by decide

/-- FramesOfEveryCommand and PinOpCounts: a queue for each command. -/
theorem witness_queues :
    (encodeQueue 0x300#64).isSome = true ∧ (encodeQueue 0x1#64).isSome = true ∧
      (encodeQueue 0x0000424100020005#64).isSome = true ∧
      (encodeQueue 0x0000002A00000002#64).isSome = true ∧ encodeQueue 3#64 = none := by decide

/-- DelayCounterRule, its three clauses: counting, the end of a command, a pin op. -/
theorem witness_delay_counter :
    (let s := { bright3 .bit 0 0 true false with dly := 1 };
      s.portIn.rst = false ∧ s.st.running = true ∧ s.dly ≠ 0) ∧
      (let s := bright3 .done 0 7 true true;
        s.portIn.rst = false ∧ s.st = .done ∧ s.dly = 0) ∧
      (let s := bright3 .stop 3 7 true false;
        s.portIn.rst = false ∧ s.st.running = true ∧ s.dly = 0) :=
  ⟨⟨rfl, rfl, Config.delay_one_ne_zero⟩, by decide, by decide⟩

/-- TraceRecordsEveryChange, its clauses without reset: a due pin op that changes no level (the `C1` of a
start), an edge that counts, and an idle edge. -/
theorem witness_trace_clauses :
    (∃ t, step (bright3 .start 0 0 true true) = .next t ∧
        (bright3 .start 0 0 true true).portIn.rst = false ∧ (bright3 .start 0 0 true true).dly = 0 ∧
        (bright3 .start 0 0 true true).opAt = some .c1 ∧ t.clkO = (bright3 .start 0 0 true true).clkO) ∧
      (∃ t, step { bright3 .start 0 0 true true with dly := 1 } = .next t ∧
        ({ bright3 .start 0 0 true true with dly := 1 } : State).dly ≠ 0) ∧
      ∃ t, step State.reset = .next t ∧ State.reset.portIn.rst = false ∧ State.reset.opAt = none :=
  ⟨⟨_, rfl, by decide, by decide, by decide, rfl⟩,
    ⟨_, step_count rfl (.inl rfl) Config.delay_one_ne_zero, Config.delay_one_ne_zero⟩,
    ⟨_, rfl, by decide, by decide⟩⟩

theorem witness_running :
    (let s := bright3 .bit 1 3 false false;
      s.portIn.rst = false ∧ s.st.running = true ∧ s.dly = 0 ∧ s.opAt = some .d1) := by decide

/-- PinOpSelection and FsmSuccessor, each clause at the last step of its primitive; byte 5 of a queue
of 6 for the last index. -/
theorem witness_fsm_rows :
    (bright3 .start 2 0 true true).sub ≤ 2 ∧ (bright3 .bit 2 7 false true).sub ≤ 2 ∧
      (let s := { bright3 .bit 1 7 false true with bi := 5, qlen := 6 }; s.sub ≤ 2 ∧ s.bi ≤ 5) ∧
      (let s := bright3 .ack 2 7 true true; s.sub ≤ 2 ∧ s.qlen ≠ 0 ∧ s.bi ≠ 7) ∧
      (let s := bright3 .stop 3 7 true false; s.st = .stop ∧ s.qlen ≠ 0 ∧ s.bi ≠ 7) := by decide

theorem witness_unused_encodings :
    (bright3 .unused6 0 0 true true).st.code = 6#3 ∧ (bright3 .unused7 0 0 true true).st.code = 7#3 ∧
      (bright3 .unused7 0 0 true true).portIn.rst = false ∧
      ∃ t, step (bright3 .stop 3 7 true false) = .next t ∧ (bright3 .stop 3 7 true false).st.code ≠ 6#3 ∧
        (bright3 .stop 3 7 true false).st.code ≠ 7#3 :=
  ⟨by decide, by decide, by decide, _, rfl, by decide, by decide⟩

/-- ResetValues, its second clause: an idle state that accepts a command at the next edge. -/
theorem witness_accepting_edge : (offered 0x300).st = .idle ∧
    ∃ t, step (offered 0x300) = .next t ∧ t.st ≠ .idle := ⟨rfl, _, rfl, by decide⟩

theorem witness_reset_input : (withInputs [⟨true, false, 0⟩]).portIn.rst = true := by decide

/-- R214, R216 past the row (log 11): with `sub = 3` in START the edge performs one pin op and goes on to the
first bit. -/
theorem test_step_past_the_row : ∃ t, step (bright3 .start 3 0 true true) = .next t ∧
    t.pos = ⟨.bit, 0, 0, 0⟩ ∧ t.w.length = 3 := ⟨_, rfl, rfl, by simp [bright3]⟩

/-- R216 (log 11): a stop of a queue with `qlen = 7`, a value the spec gives no command, goes on to the next
frame. -/
theorem test_stop_with_a_long_queue :
    fsmOf (step { bright3 .stop 3 7 true false with qlen := 7 }) = some (⟨.start, 0, 7, 1⟩, true, true) := by
  decide

/-- TraceRecordsEveryChange and EveryStepKeepsTheInvariant: an edge that answers a next state. -/
theorem witness_step : ∃ t, step (bright3 .start 2 0 true true) = .next t ∧
    t.datO ≠ (bright3 .start 2 0 true true).datO := ⟨_, rfl, by decide⟩

/-- The invariant at the frame-start edge: pin op 3 of a start. -/
theorem witness_inv_start : (bright3 .start 2 0 true true).Inv where
  dlyBound := Config.settleCycles_pos
  idleDly := by decide
  stLegal := by decide
  inRange := by decide
  entry := by decide
  queue := by decide
  opens := by decide
  closes := by decide
  clkLevel := by decide
  datLevel := by decide
  trace := by decide
  markers := by decide

/-- The invariant at the frame-stop edge: pin op 4 of a stop. -/
theorem witness_inv_stop : (bright3 .stop 3 7 true false).Inv where
  dlyBound := Config.settleCycles_pos
  idleDly := by decide
  stLegal := by decide
  inRange := by decide
  entry := by decide
  queue := by decide
  opens := by decide
  closes := by decide
  clkLevel := by decide
  datLevel := by decide
  trace := by decide
  markers := by decide

/-- DataEdgesUnderAHighClock: both edges. -/
theorem witness_data_edges :
    (∃ t, step (bright3 .start 2 0 true true) = .next t ∧
        (bright3 .start 2 0 true true).portIn.rst = false ∧
        (bright3 .start 2 0 true true).clkO = true ∧ t.datO ≠ (bright3 .start 2 0 true true).datO) ∧
      ∃ t, step (bright3 .stop 3 7 true false) = .next t ∧
        (bright3 .stop 3 7 true false).portIn.rst = false ∧
        (bright3 .stop 3 7 true false).clkO = true ∧ t.datO ≠ (bright3 .stop 3 7 true false).datO :=
  ⟨⟨_, rfl, by decide, by decide, by decide⟩, ⟨_, rfl, by decide, by decide, by decide⟩⟩

theorem witness_frames : ∀ bs ∈ [[0x40#8], [0xC0#8, 0x77#8]], bs ≠ [] := by decide

/-- FsmRunsThePrimitives, each primitive from its first step. -/
theorem witness_primitives :
    ∀ s ∈ [bright3 .start 0 0 true true, bright3 .bit 0 7 true false, bright3 .ack 0 7 true true,
      bright3 .stop 0 7 false true],
      s.sub = 0 ∧ s.dly = 0 ∧
        noReset (3 * Config.settleCycles + 1) s := by
  have h : ∀ s : State, s.inputs = [] → noReset (3 * Config.settleCycles + 1) s := fun s h p hp => by
    rw [h, List.take_nil] at hp
    cases hp
  intro s hs
  simp only [List.mem_cons, List.not_mem_nil, or_false] at hs
  rcases hs with rfl | rfl | rfl | rfl <;> exact ⟨rfl, rfl, h _ rfl⟩

/-- The statements about runs: an idle state that is offered a word and then nothing. For
CycleTimingOfACommand, `j` at both ends of its range. -/
theorem witness_run :
    (offered 0x300).st = .idle ∧ (offered 0x300).offers 0x300 ∧
      encodeQueue 0x300 = some ⟨[0x8A#8], false⟩ ∧
      (Queue.expand ⟨[0x8A#8], false⟩).length = 34 ∧
      0 ≤ 34 * Config.settleCycles ∧ 34 * Config.settleCycles ≤ 34 * Config.settleCycles ∧
      noReset (34 * Config.settleCycles + 2) (offered 0x300) := by
  refine ⟨rfl, ⟨rfl, rfl, rfl⟩, rfl, rfl, Nat.zero_le _, Nat.le_refl _, fun p hp => ?_⟩
  have hp := List.mem_of_mem_take hp
  rw [List.mem_singleton.1 hp]

/-- TransactionLevelAgrees with a reserved word. -/
theorem witness_run_reserved : (offered 3).st = .idle ∧ (offered 3).offers 3 ∧ encodeQueue 3 = none ∧
    noReset 1 (offered 3) := by
  refine ⟨rfl, ⟨rfl, rfl, rfl⟩, rfl, fun p hp => ?_⟩
  have hp := List.mem_of_mem_take hp
  rw [List.mem_singleton.1 hp]

/-- ResetCutsARunningCommand: a reset at the second edge after acceptance. -/
theorem witness_cut :
    (let s := withInputs [⟨false, true, 0x300⟩, ⟨false, false, 0⟩, ⟨true, false, 0⟩];
      s.st = .idle ∧ s.offers 0x300 ∧ noReset (1 + 1) s ∧ ∃ p, s.inputs[1 + 1]? = some p ∧ p.rst = true) ∧
      0 < 1 ∧ 1 ≤ (Queue.expand ⟨[0x8A#8], false⟩).length * Config.settleCycles := by
  refine ⟨⟨rfl, ⟨rfl, rfl, rfl⟩, by simp [noReset, withInputs], _, rfl, rfl⟩, one_pos, ?_⟩
  exact Nat.mul_pos (by decide) Config.settleCycles_pos

end Sys2Proof.Tests
end

/-! ## The settle interval in real time (00_scope.md section 3) -/

namespace Sys2Proof.Config

/-- The slack of the clock slows it by a factor of at least 1. -/
theorem one_le_one_add_abs (slack : ℝ) : 1 ≤ 1 + |slack| :=
  le_add_of_nonneg_right (abs_nonneg slack)

/-- A settle length of at least one cycle leaves a running clock, whatever the slack (R14). -/
theorem clock_pos {cycles : Nat} (h : 0 < cycles) (slack : ℝ) : 0 < clock cycles slack := by
  have hcycles : (0 : ℝ) < cycles := Nat.cast_pos.2 h
  have hslack : 0 < 1 + |slack| := one_pos.trans_le (one_le_one_add_abs slack)
  simp only [clock, tSettleMicros]
  positivity

/-- `T_SETTLE` (R13) counted in cycles of the clock: the settle length, shortened by the clock's slack. -/
theorem settleTime_mul_clock (cycles : Nat) (slack : ℝ) :
    (2 / 1000000 : ℝ) * clock cycles slack = cycles / (1 + |slack|) := by
  have hslack : 1 + |slack| ≠ 0 := (one_pos.trans_le (one_le_one_add_abs slack)).ne'
  simp only [clock, tSettleMicros]
  push_cast
  field_simp

/-- No clock that the model can write outruns its settle length (R14, R110). -/
theorem ceil_settleTime_mul_clock_le (cycles : Nat) (slack : ℝ) :
    ⌈(2 / 1000000 : ℝ) * clock cycles slack⌉₊ ≤ cycles := by
  rw [settleTime_mul_clock]
  exact Nat.ceil_le.2 (div_le_self (Nat.cast_nonneg cycles) (one_le_one_add_abs slack))

/-- Settles O1: the model's `F_CLK` is a clock of its own settle length, so the general facts about
`clock` apply to it. -/
theorem settleCyclesCoverTheSettleInterval :
    Obligations.SettleCyclesCoverTheSettleInterval :=
  ⟨clock_pos settleCycles_pos clockSlack, settleCycles_pos,
    ceil_settleTime_mul_clock_le settleCycles clockSlack⟩

end Sys2Proof.Config

/-! ## The wire trace and the hidden state (10_state.md sections 5 and 6) -/

namespace Sys2Proof.Machine

/-! ### What an edge does to `W` and to the lines (R44) -/

/-- A reset edge appends the marker, never twice in a row (R44, R260). -/
theorem w_of_step_reset {s t : State} (h : step s = .next t) (hrst : s.portIn.rst = true) :
    t.w = markReset s.w := by
  rw [step_reset hrst] at h
  cases h
  rfl

/-- An edge at which a pin op is due appends it and sets its line (R101). -/
theorem trace_of_step_perform {s t : State} {op : PinOp} (h : step s = .next t)
    (hrst : s.portIn.rst = false) (hdly : s.dly = 0) (hop : s.opAt = some op) :
    t.w = s.w ++ [.pin op] ∧
      t.clkO = (if op.line = .clk then op.level else s.clkO) ∧
      t.datO = if op.line = .clk then s.datO else op.level := by
  rw [step_perform hrst hdly hop] at h
  cases h
  simp

/-- Without a reset and without a due pin op, an edge leaves the trace and both lines. -/
theorem trace_of_step_not_due {s t : State} (h : step s = .next t) (hrst : s.portIn.rst = false)
    (hnot : s.dly ≠ 0 ∨ s.opAt = none) :
    t.w = s.w ∧ t.clkO = s.clkO ∧ t.datO = s.datO := by
  obtain ⟨hr, -⟩ | ⟨-, -, rfl | ⟨_, rfl⟩ | ⟨_, _, _, -, rfl⟩⟩ | ⟨-, -, -, rfl⟩ | ⟨-, hdly, op, hop, -⟩ |
    ⟨-, -, rfl⟩ := step_cases h
  case inl => simp [hrst] at hr
  case inr.inr.inr.inl => simp [hdly, hop] at hnot
  all_goals exact ⟨rfl, rfl, rfl⟩

/-- Settles O48: one lemma for each kind of edge. -/
theorem traceRecordsEveryChange : Obligations.TraceRecordsEveryChange :=
  ⟨rfl, fun _ _ h =>
    ⟨w_of_step_reset h, fun _ => trace_of_step_perform h, trace_of_step_not_due h⟩⟩

/-! ### The registers that are not observed in `IDLE` (R43) -/

/-- Two states that agree on all but the registers R43 calls unobservable in `IDLE`: `sub`, `bit`, `bi`,
`dly`, `Q`, `qlen` and `brk`. -/
structure State.SameObserved (s s' : State) : Prop where
  st : s'.st = s.st
  clkO : s'.clkO = s.clkO
  datO : s'.datO = s.datO
  w : s'.w = s.w
  lutData : s'.lutData = s.lutData
  inputs : s'.inputs = s.inputs

namespace State.SameObserved

variable {s s' : State}

theorem of_eq (h : s' = s) : s.SameObserved s' := by
  subst h
  exact ⟨rfl, rfl, rfl, rfl, rfl, rfl⟩

theorem takeInput (h : s.SameObserved s') : s.takeInput.SameObserved s'.takeInput :=
  ⟨h.st, h.clkO, h.datO, h.w, h.lutData, congrArg List.tail h.inputs⟩

theorem portIn (h : s.SameObserved s') : s'.portIn = s.portIn :=
  congrArg (fun l => l.headD PortIn.quiet) h.inputs

/-- A reset edge overwrites the registers that may differ (R260). -/
theorem resetEdge (h : s.SameObserved s') : s'.resetEdge = s.resetEdge := by
  simp only [State.resetEdge, h.w, h.lutData, h.inputs]

/-- "Acceptance overwrites all of them" (R43, R212). -/
theorem loadQueue (h : s.SameObserved s') (c : Queue) : s'.loadQueue c = s.loadQueue c := by
  simp only [State.loadQueue, h.clkO, h.datO, h.w, h.lutData, h.inputs]

end State.SameObserved

/-- In `IDLE` a queue is accepted (R211). -/
theorem State.acceptQueue_of_idle {s : State} (c : Queue) (hi : s.st = .idle) :
    s.acceptQueue c = s.loadQueue c := if_pos hi

/-- What a word does in `IDLE` is chosen by the word alone: nothing, or the load of its queue. -/
theorem exec_decodeCommand_idle (word : Word) :
    (∀ s : State, exec (decodeCommand word) s = .next s) ∨
      ∃ c, ∀ s : State, s.st = .idle → exec (decodeCommand word) s = .next (s.loadQueue c) := by
  unfold decodeCommand
  split
  · exact .inr ⟨_, fun _ hi => congrArg _ (State.acceptQueue_of_idle _ hi)⟩
  · split
    · exact .inr ⟨_, fun _ hi => congrArg _ (State.acceptQueue_of_idle _ hi)⟩
    · split
      · exact .inr ⟨_, fun _ hi => congrArg _ (State.acceptQueue_of_idle _ hi)⟩
      · exact .inl fun _ => rfl

/-- From two idle states that agree on what is observed, the next edge leaves two that agree again, and
the same state when it accepts a command. -/
theorem step_idle_sameObserved {s s' : State} (h : s.SameObserved s') (hi : s.st = .idle) :
    ∃ t t', step s = .next t ∧ step s' = .next t' ∧ t.SameObserved t' ∧ (t.st ≠ .idle → t' = t) := by
  have hi' : s'.st = .idle := h.st.trans hi
  have hin := h.takeInput
  cases hrst : s.portIn.rst with
  | true =>
    have heq := hin.resetEdge
    exact ⟨_, _, step_reset hrst, step_reset (h.portIn ▸ hrst), .of_eq heq,
      fun _ => heq⟩
  | false =>
    have hrst' : s'.portIn.rst = false := h.portIn ▸ hrst
    cases hv : s.portIn.cmdValid with
    | false =>
      exact ⟨_, _, step_hold hrst hi hv, step_hold hrst' hi' (h.portIn ▸ hv), hin,
        fun hne => absurd hi hne⟩
    | true =>
      rw [step_accept hrst hi hv, step_accept hrst' hi' (h.portIn ▸ hv), h.portIn]
      obtain hkeep | ⟨c, hload⟩ := exec_decodeCommand_idle s.portIn.cmdWord
      · exact ⟨_, _, hkeep _, hkeep _, hin, fun hne => absurd hi hne⟩
      · have heq := hin.loadQueue c
        exact ⟨_, _, hload _ hi, hload _ hi', .of_eq heq, fun _ => heq⟩

/-- Settles O45: the reset values by definition; the hidden registers are those `SameObserved` leaves
free. -/
theorem resetValues : Obligations.ResetValues := by
  refine ⟨⟨rfl, rfl, rfl, rfl, rfl, rfl, rfl, rfl, rfl, rfl, rfl⟩, ?_⟩
  intro s sub bit bi qlen dly q brk hi
  obtain ⟨t, t', ht, ht', hobs, heq⟩ :=
    step_idle_sameObserved (s := s) (s' := { s with
      sub := sub, bit := bit, bi := bi, dly := dly, q := q, qlen := qlen, brk := brk })
      ⟨rfl, rfl, rfl, rfl, rfl, rfl⟩ hi
  exact ⟨t, t', ht, ht', hobs.st, hobs.clkO, hobs.datO, hobs.w, heq⟩

end Sys2Proof.Machine

/-! ## Command words and what they mean (30_encoding.md) -/

namespace Sys2Proof

/-! ### The assembled word as a number (R89) -/

/-- A word that is the number `v` and holds nothing from bit `k` on: the lanes assembled so far. -/
def LanesBelow (w : Word) (k v : Nat) : Prop := w.toNat = v ∧ v < 2 ^ k

/-- A lane placed above the others adds its operand's value there: no bit of it is cut, and none meets a
bit that is already set. -/
theorem LanesBelow.or_lane {rest : Word} {k v n m : Nat} (h : LanesBelow rest k v) (x : BitVec n)
    (hkm : k ≤ m) (hfit : m + n ≤ 64) :
    LanesBelow (x.setWidth 64 <<< m ||| rest) (m + n) (x.toNat * 2 ^ m + v) := by
  obtain ⟨rfl, hlt⟩ := h
  have hrest : rest.toNat < 2 ^ m := hlt.trans_le (Nat.pow_le_pow_right two_pos hkm)
  have hsum : x.toNat * 2 ^ m + rest.toNat < 2 ^ (m + n) := by
    rw [pow_add, mul_comm (2 ^ m)]
    calc x.toNat * 2 ^ m + rest.toNat < (x.toNat + 1) * 2 ^ m := by rw [add_one_mul]; omega
      _ ≤ 2 ^ n * 2 ^ m := Nat.mul_le_mul_right _ x.isLt
  have hword : 2 ^ (m + n) ≤ 2 ^ 64 := Nat.pow_le_pow_right two_pos hfit
  have hlane : (x.setWidth 64 <<< m).toNat = x.toNat <<< m := by
    rw [BitVec.toNat_shiftLeft, BitVec.toNat_setWidth_of_le (by omega), Nat.shiftLeft_eq,
      Nat.mod_eq_of_lt (by omega)]
  refine ⟨?_, hsum⟩
  rw [BitVec.toNat_or, hlane, ← Nat.shiftLeft_add_eq_or_of_lt hrest, Nat.shiftLeft_eq]

/-- The OP lane alone: two bits (R81). -/
theorem lanesBelow_op {op : Nat} (h : op < 4) : LanesBelow (BitVec.ofNat 64 op) 2 op :=
  ⟨(BitVec.toNat_ofNat op 64).trans (Nat.mod_eq_of_lt (by omega)), h⟩

theorem toNat_encBright (level : BitVec 4) : (encBright level).toNat = level.toNat * 2 ^ 8 + 0 :=
  ((lanesBelow_op (op := 0) (by decide)).or_lane level (by decide) (by decide)).1

theorem toNat_encText (sep : Bool) (len c0 c1 c2 c3 : Byte) :
    (encText sep len c0 c1 c2 c3).toNat =
      c3.toNat * 2 ^ 56 + c2.toNat * 2 ^ 48 + c1.toNat * 2 ^ 40 + c0.toNat * 2 ^ 32
        + len.toNat * 2 ^ 16 + sep.toNat * 2 ^ 2 + 1 := by
  have hop := lanesBelow_op (op := 1) (by decide)
  have hsep := hop.or_lane (.ofBool sep) (m := 2) le_rfl (by decide)
  have hlen := hsep.or_lane len (m := 16) (by decide) (by decide)
  have hc0 := hlen.or_lane c0 (m := 32) (by decide) (by decide)
  have hc1 := hc0.or_lane c1 (m := 40) le_rfl (by decide)
  have hc2 := hc1.or_lane c2 (m := 48) le_rfl (by decide)
  have hc3 := hc2.or_lane c3 (m := 56) le_rfl (by decide)
  simpa only [encText, BitVec.or_assoc, BitVec.toNat_ofBool, add_assoc] using hc3.1

theorem toNat_encNum (sep : Bool) (value : Half) :
    (encNum sep value).toNat = value.toNat * 2 ^ 32 + sep.toNat * 2 ^ 2 + 2 := by
  have hop := lanesBelow_op (op := 2) (by decide)
  have hsep := hop.or_lane (.ofBool sep) (m := 2) le_rfl (by decide)
  have hvalue := hsep.or_lane value (m := 32) (by decide) (by decide)
  simpa only [encNum, BitVec.or_assoc, BitVec.toNat_ofBool, add_assoc] using hvalue.1

/-- Settles O19: the value of each command's word, one lane at a time from OP up. -/
theorem commandWordsAreTheSumsOfTheirFields : Obligations.CommandWordsAreTheSumsOfTheirFields :=
  ⟨fun level => ⟨_, rfl, toNat_encBright level⟩,
    fun sep len c0 c1 c2 c3 => ⟨_, rfl, toNat_encText sep len c0 c1 c2 c3⟩,
    fun sep value => ⟨_, rfl, toNat_encNum sep value⟩, _, rfl, rfl⟩

/-! ### Decoding by OP (R81, R88) -/

theorem fieldOp_cases (w : Word) :
    fieldOp w = 0#2 ∨ fieldOp w = 1#2 ∨ fieldOp w = 2#2 ∨ fieldOp w = 3#2 := by
  generalize fieldOp w = op
  revert op
  decide

theorem decodeCommand_of_op_zero {w : Word} (h : fieldOp w = 0#2) :
    decodeCommand w = .setBrightness (fieldLevel w) := by
  simp [decodeCommand, h]

theorem decodeCommand_of_op_one {w : Word} (h : fieldOp w = 1#2) :
    decodeCommand w = .displayText (fieldSep w) (fieldLen w) (fieldChar w 0) (fieldChar w 1)
      (fieldChar w 2) (fieldChar w 3) := by
  simp [decodeCommand, h]

theorem decodeCommand_of_op_two {w : Word} (h : fieldOp w = 2#2) :
    decodeCommand w = .displayNumber (fieldSep w) (fieldValue w) := by
  simp [decodeCommand, h]

theorem decodeCommand_of_op_three {w : Word} (h : fieldOp w = 3#2) : decodeCommand w = .reserved := by
  simp [decodeCommand, h]

end Sys2Proof

namespace Sys2Proof.Machine

/-! ### The characters a DISPLAY_TEXT reads (R180, R190) -/

/-- `TextQueue(sep, n, C)` reads the first `n` characters alone (R190). -/
theorem textQueue_congr (sep : Bool) {n : Nat} {chars chars' : List Byte}
    (h : ∀ i < n, chars.getD i 0 = chars'.getD i 0) :
    textQueue sep n chars = textQueue sep n chars' := by
  simp only [textQueue]
  congr 3
  exact List.map_congr_left fun i hi => by rw [h i (List.mem_range.1 hi)]

@[simp] theorem length_textQueue (sep : Bool) (n : Nat) (chars : List Byte) :
    (textQueue sep n chars).bytes.length = n + 2 := by
  simp [textQueue]

/-- Character `i` of the four that a word's fields spell is its field `C_i` (R85). -/
theorem getD_fieldChars (w : Word) {i : Nat} (hi : i < 4) :
    [fieldChar w 0, fieldChar w 1, fieldChar w 2, fieldChar w 3].getD i 0 = fieldChar w i := by
  interval_cases i <;> rfl

/-- DISPLAY_TEXT is the acceptance of its queue (R185, R212). -/
theorem exec_displayText (sep : Bool) (len c0 c1 c2 c3 : Byte) (s : State) :
    exec (.displayText sep len c0 c1 c2 c3) s =
      .next (s.acceptQueue (displayTextQueue sep len c0 c1 c2 c3)) := rfl

/-- Words that agree on LEN and the first `min(LEN, 4)` characters have one text queue. -/
theorem displayTextQueue_fields_congr {w w' : Word} (sep : Bool) (hlen : fieldLen w = fieldLen w')
    (hchars : ∀ i < min (fieldLen w).toNat 4, fieldChar w i = fieldChar w' i) :
    displayTextQueue sep (fieldLen w) (fieldChar w 0) (fieldChar w 1) (fieldChar w 2) (fieldChar w 3) =
      displayTextQueue sep (fieldLen w') (fieldChar w' 0) (fieldChar w' 1) (fieldChar w' 2)
        (fieldChar w' 3) := by
  simp only [displayTextQueue, ← hlen]
  refine textQueue_congr sep fun i hi => ?_
  have hi4 : i < 4 := hi.trans_le (Nat.min_le_right _ _)
  rw [getD_fieldChars w hi4, getD_fieldChars w' hi4, hchars i hi]

/-- Settles O23: by the common OP, both words decode to the same command with the operands that it
reads; the characters past LEN, which may differ, do not reach the queue. -/
theorem commandsReadOnlyTheirFields : Obligations.CommandsReadOnlyTheirFields := by
  intro w w' s hop hlevel htext hnum
  obtain h | h | h | h := fieldOp_cases w
  · rw [decodeCommand_of_op_zero h, decodeCommand_of_op_zero (hop ▸ h), hlevel h]
  · obtain ⟨hsep, hlen, hchars⟩ := htext h
    rw [decodeCommand_of_op_one h, decodeCommand_of_op_one (hop ▸ h), hsep,
      exec_displayText, exec_displayText, displayTextQueue_fields_congr _ hlen hchars]
  · obtain ⟨hsep, hvalue⟩ := hnum h
    rw [decodeCommand_of_op_two h, decodeCommand_of_op_two (hop ▸ h), hsep, hvalue]
  · rw [decodeCommand_of_op_three h, decodeCommand_of_op_three (hop ▸ h)]

/-! ### The pseudo-instructions (R99) -/

/-- The limit of 255 on the length operand does not show in the character count (R99, R186). -/
theorem charCount_textsLen (str : List Byte) : charCount (textsLen str) = min str.length 4 := by
  simp only [charCount, textsLen, Config.nPos, BitVec.toNat_ofNat]
  omega

/-- TEXTS in `IDLE` loads the text queue of its first four characters (R99, R212). -/
theorem exec_texts_idle {s : State} (hi : s.st = .idle) (sep : Bool) (str : List Byte) :
    exec (.texts sep str) s =
      .next (s.loadQueue (textQueue sep (min str.length 4)
        [textsChar str 0, textsChar str 1, textsChar str 2, textsChar str 3])) := by
  rw [← charCount_textsLen]
  exact congrArg _ (State.acceptQueue_of_idle _ hi)

/-- OFF in `IDLE` loads the queue of brightness level 0 (R99, R212). -/
theorem exec_off_idle {s : State} (hi : s.st = .idle) :
    exec .off s = .next (s.loadQueue (brightnessQueue 0)) :=
  congrArg _ (State.acceptQueue_of_idle _ hi)

/-- Settles O28: each is executed as its expansion by definition, and loads that command's queue. -/
theorem pseudoInstructionsExpand : Obligations.PseudoInstructionsExpand := by
  refine ⟨fun sep str s hi => ⟨rfl, _, exec_texts_idle hi sep str, rfl, ?_, rfl⟩,
    fun s hi => ⟨rfl, exec_off_idle hi⟩⟩
  rw [State.loadQueue_qlen, length_textQueue, Nat.add_comm]

end Sys2Proof.Machine

/-! ## The GPIO timing controller (40_gpio_timing.md) -/

namespace Sys2Proof.Machine

/-- SET_LINE is one `SetLine` (R101). -/
theorem exec_setLine (line : Line) (v : Bool) (s : State) :
    exec (.setLine line v) s = .next (s.setLine line v) := rfl

/-- Settles O10: `SetLine` as one record does not compare the new level with the old one (R105), and
the levels after its pin op are, by definition, the ones stated. -/
theorem setLineIsOnePinOp : Obligations.SetLineIsOnePinOp := by
  intro line v s
  rw [exec_setLine, State.setLine_eq]
  rfl

end Sys2Proof.Machine

/-! ## The character table (43_char_lut.md) -/

namespace Sys2Proof.Config

/-- Every entry is a pattern of segments a to g alone: the five pinned entries (R162 to R165) fit in
bits 0 to 6, and the others are built from seven bits (R167). -/
theorem charLut_eq_setWidth (i : BitVec 7) :
    ∃ segments : BitVec 7, charLut i = segments.setWidth 8 := by
  unfold charLut
  split_ifs
  exacts [⟨0x3F#7, rfl⟩, ⟨0x5B#7, rfl⟩, ⟨0x66#7, rfl⟩, ⟨0x77#7, rfl⟩, ⟨0x7C#7, rfl⟩, ⟨_, rfl⟩]

/-- Seven segments leave the separator's bit clear. -/
theorem setWidth_and_separator (segments : BitVec 7) : segments.setWidth 8 &&& 0x80#8 = 0#8 := by
  have hsep : 0x80#8 = BitVec.twoPow 8 7 := rfl
  rw [hsep, BitVec.and_twoPow, getLsbD_seven_setWidth]
  rfl

/-- Settles O8: an entry is seven segments, whichever branch of the table gives it. -/
theorem noTableEntrySetsTheSeparator : Obligations.NoTableEntrySetsTheSeparator := by
  intro i
  obtain ⟨segments, hentry⟩ := charLut_eq_setWidth i
  rw [hentry, setWidth_and_separator]

end Sys2Proof.Config

namespace Sys2Proof.Machine

/-- The low 7 bits of a code do not see the mask `0x7F`, which is all ones there (R161). -/
theorem setWidth_and_mask (c : Byte) : (c &&& 0x7F#8).setWidth 7 = c.setWidth 7 := by
  have hmask : (0x7F#8).setWidth 7 = BitVec.allOnes 7 := rfl
  rw [BitVec.setWidth_and, hmask, BitVec.and_allOnes]

/-- `Seg(c) = Seg(c & 0x7F)` (R161). -/
theorem seg_and_mask (c : Byte) : seg (c &&& 0x7F#8) = seg c :=
  congrArg Config.charLut (setWidth_and_mask c)

/-- `Seg(c)` is the table entry at `c` as a 7-bit number (R160). -/
theorem seg_eq_charLut_ofNat (c : Byte) : seg c = Config.charLut (BitVec.ofNat 7 c.toNat) :=
  congrArg Config.charLut (BitVec.ofNat_toNat 7 c).symm

/-- Settles O5: the lookup cannot tell a code from the masked one, and at the masked one it is the
entry stated. -/
theorem segmentLookupMasksItsIndex : Obligations.SegmentLookupMasksItsIndex := by
  intro c
  have hmask : seg c = seg (c &&& 0x7F#8) := (seg_and_mask c).symm
  exact ⟨hmask.trans (seg_eq_charLut_ofNat _), hmask⟩

end Sys2Proof.Machine

/-! ## The command encoder (44_command_encoder.md) -/

namespace Sys2Proof.Machine

/-! ### The brightness byte (R183, R184) -/

theorem toNat_clampLevel (level : BitVec 4) : (clampLevel level).toNat = min level.toNat 8 := by
  unfold clampLevel
  split
  case isTrue hle => exact (min_eq_left hle).symm
  case isFalse hgt => exact (min_eq_right (not_le.1 hgt).le).symm

/-- Neither the clamped level nor its sum with `0x87` is cut in 8 bits. -/
theorem brightnessByte_eq (level : BitVec 4) :
    brightnessByte level = BitVec.ofNat 8 (0x87 + min level.toNat 8) := by
  rw [brightnessByte, ← BitVec.ofNat_toNat, toNat_clampLevel, ← BitVec.ofNat_add]

/-- SET_BRIGHTNESS is the acceptance of its queue (R182, R212). -/
theorem exec_setBrightness (level : BitVec 4) (s : State) :
    exec (.setBrightness level) s = .next (s.acceptQueue (brightnessQueue level)) := rfl

/-- Settles O24: the load of the one-byte queue, its byte in closed form. -/
theorem setBrightnessIsAccepted : Obligations.SetBrightnessIsAccepted := by
  intro level s hi
  rw [exec_setBrightness, State.acceptQueue_of_idle _ hi, ← brightnessByte_eq]
  rfl

/-! ### Data bytes (R187, R188) -/

/-- A segment pattern has the separator's bit clear (R166). -/
theorem getLsbD_seven_seg (c : Byte) : (seg c).getLsbD 7 = false := by
  obtain ⟨segments, hentry⟩ := Config.charLut_eq_setWidth (c.setWidth 7)
  rw [seg, hentry, Config.getLsbD_seven_setWidth]

/-- The mask `0x7F` keeps all seven segments of a pattern (R166). -/
theorem seg_value_and_mask (c : Byte) : seg c &&& 0x7F#8 = seg c := by
  obtain ⟨segments, hentry⟩ := Config.charLut_eq_setWidth (c.setWidth 7)
  have hmask : 0x7F#8 = (BitVec.allOnes 7).setWidth 8 := rfl
  rw [seg, hentry, hmask, ← BitVec.setWidth_and, BitVec.and_allOnes]

/-- The overlay is on data byte 1 (R188). -/
theorem dataByte_overlay (c : Byte) : dataByte true 1 c = seg c ||| 0x80#8 := rfl

/-- Every other data byte, and data byte 1 without separator, is the pattern alone (R187, R188). -/
theorem dataByte_plain {sep : Bool} {i : Nat} (h : ¬(sep = true ∧ i = 1)) (c : Byte) :
    dataByte sep i c = seg c := by
  rw [dataByte, if_neg h, BitVec.or_zero]

theorem dataByte_one (sep : Bool) (c : Byte) :
    dataByte sep 1 c = if sep then seg c ||| 0x80#8 else seg c := by
  cases sep
  · exact dataByte_plain (by simp) c
  · exact dataByte_overlay c

theorem getLsbD_seven_dataByte (sep : Bool) (i : Nat) (c : Byte) :
    (dataByte sep i c).getLsbD 7 = (sep && decide (i = 1)) := by
  by_cases h : sep = true ∧ i = 1
  · obtain ⟨rfl, rfl⟩ := h
    rw [dataByte_overlay, BitVec.getLsbD_or, getLsbD_seven_seg]
    rfl
  · rw [dataByte_plain h, getLsbD_seven_seg]
    simpa using h

theorem dataByte_and_mask (sep : Bool) (i : Nat) (c : Byte) :
    dataByte sep i c &&& 0x7F#8 = seg c := by
  by_cases h : sep = true ∧ i = 1
  · obtain ⟨rfl, rfl⟩ := h
    have hsep : 0x80#8 &&& 0x7F#8 = 0#8 := rfl
    rw [dataByte_overlay, BitVec.and_or_distrib_right, seg_value_and_mask, hsep, BitVec.or_zero]
  · rw [dataByte_plain h, seg_value_and_mask]

/-! ### The entries of a text queue (R180) -/

/-- Past its two command bytes a text queue holds `n` data bytes and no more. -/
theorem getElem?_textQueue (sep : Bool) (n : Nat) (chars : List Byte) (i : Nat) :
    (textQueue sep n chars).bytes[2 + i]? =
      if i < n then some (dataByte sep i (chars.getD i 0)) else none := by
  rw [Nat.add_comm]
  split
  case isTrue hi => simp [textQueue, hi]
  case isFalse hi => simp [textQueue, not_lt.1 hi]

/-- Settles O33: entry `2 + i` is data byte `i`, whose bit 7 and other bits are known. -/
theorem separatorOnlyOnDataByteOne : Obligations.SeparatorOnlyOnDataByteOne := by
  intro sep n chars i hi
  exact ⟨_, (getElem?_textQueue sep n chars i).trans (if_pos hi), getLsbD_seven_dataByte sep i _,
    dataByte_and_mask sep i _⟩

/-- The registers that a text queue is loaded into: `0x40`, `0xC0`, the data bytes sent, and `0x00` past
them (R180, R212). -/
theorem ofList_textQueue (sep : Bool) (n : Nat) (chars : List Byte) :
    ByteQueue.ofList (textQueue sep n chars).bytes =
      ⟨0x40, 0xC0,
        if 0 < n then seg (chars.getD 0 0) else 0,
        if 1 < n then (if sep then seg (chars.getD 1 0) ||| 0x80#8 else seg (chars.getD 1 0)) else 0,
        if 2 < n then seg (chars.getD 2 0) else 0,
        if 3 < n then seg (chars.getD 3 0) else 0⟩ := by
  have hdata (i : Nat) : (textQueue sep n chars).bytes.getD (2 + i) 0 =
      if i < n then dataByte sep i (chars.getD i 0) else 0 := by
    rw [List.getD_eq_getElem?_getD, getElem?_textQueue]
    split <;> rfl
  have hplain {i : Nat} (hi : i ≠ 1) (c : Byte) : dataByte sep i c = seg c :=
    dataByte_plain (mt And.right hi) c
  rw [ByteQueue.ofList, hdata 0, hdata 1, hdata 2, hdata 3, dataByte_one, hplain (by decide),
    hplain (by decide), hplain (by decide)]
  rfl

/-! ### DISPLAY_TEXT (R185, R186) -/

/-- A position of the display is filled exactly when it is below LEN (R186). -/
theorem lt_charCount_iff {i : Nat} (hi : i < 4) (len : Byte) : i < charCount len ↔ i < len.toNat :=
  lt_min_iff.trans (and_iff_left hi)

/-- The registers that DISPLAY_TEXT loads: the positions filled are those below LEN. -/
theorem ofList_displayTextQueue (sep : Bool) (len c0 c1 c2 c3 : Byte) :
    ByteQueue.ofList (displayTextQueue sep len c0 c1 c2 c3).bytes =
      ⟨0x40, 0xC0,
        if 0 < len.toNat then seg c0 else 0,
        if 1 < len.toNat then (if sep then seg c1 ||| 0x80#8 else seg c1) else 0,
        if 2 < len.toNat then seg c2 else 0,
        if 3 < len.toNat then seg c3 else 0⟩ := by
  rw [displayTextQueue, ofList_textQueue]
  simp only [lt_charCount_iff, Nat.reduceLT]
  rfl

theorem length_displayTextQueue (sep : Bool) (len c0 c1 c2 c3 : Byte) :
    (displayTextQueue sep len c0 c1 c2 c3).bytes.length = 2 + min len.toNat 4 :=
  (length_textQueue sep _ _).trans (Nat.add_comm _ 2)

/-- Settles O25: the load of the text queue, its registers and its length in closed form. -/
theorem displayTextIsAccepted : Obligations.DisplayTextIsAccepted := by
  intro sep len c0 c1 c2 c3 s hi
  rw [exec_displayText, State.acceptQueue_of_idle _ hi, ← ofList_displayTextQueue,
    ← length_displayTextQueue sep len c0 c1 c2 c3]
  rfl

end Sys2Proof.Machine

/-! ## The dispatch FSM (45_dispatch_fsm.md) -/

namespace Sys2Proof.Machine

/-! ### The queue of a word (R180, R212, R213) -/

theorem encodeQueue_of_op_zero {w : Word} (h : fieldOp w = 0#2) :
    encodeQueue w = some (brightnessQueue (fieldLevel w)) := by
  have hop : (w.extractLsb' 0 2).toNat = 0 := congrArg BitVec.toNat h
  simp only [encodeQueue, hop, brightnessQueue, brightnessByte_eq, BitVec.ofNat_add]
  rfl

theorem encodeQueue_of_op_one {w : Word} (h : fieldOp w = 1#2) :
    encodeQueue w = some (displayTextQueue (fieldSep w) (fieldLen w) (fieldChar w 0) (fieldChar w 1)
      (fieldChar w 2) (fieldChar w 3)) := by
  have hop : (w.extractLsb' 0 2).toNat = 1 := congrArg BitVec.toNat h
  simp only [encodeQueue, hop]
  rfl

theorem encodeQueue_of_op_two {w : Word} (h : fieldOp w = 2#2) :
    encodeQueue w = some (displayNumberQueue (fieldSep w) (fieldValue w)) := by
  have hop : (w.extractLsb' 0 2).toNat = 2 := congrArg BitVec.toNat h
  simp only [encodeQueue, hop]
  rfl

theorem encodeQueue_of_op_three {w : Word} (h : fieldOp w = 3#2) : encodeQueue w = none := by
  have hop : (w.extractLsb' 0 2).toNat = 3 := congrArg BitVec.toNat h
  simp only [encodeQueue, hop]

/-- Only the words of RESERVED have no queue. -/
theorem encodeQueue_eq_none_iff (word : Word) : encodeQueue word = none ↔ fieldOp word = 3#2 := by
  obtain h | h | h | h := fieldOp_cases word
  · simp [encodeQueue_of_op_zero h, h]
  · simp [encodeQueue_of_op_one h, h]
  · simp [encodeQueue_of_op_two h, h]
  · simp [encodeQueue_of_op_three h, h]

/-- DISPLAY_NUMBER is the acceptance of its queue (R191, R212). -/
theorem exec_displayNumber (sep : Bool) (value : Half) (s : State) :
    exec (.displayNumber sep value) s = .next (s.acceptQueue (displayNumberQueue sep value)) := rfl

/-- RESERVED changes nothing (R195, R213). -/
theorem exec_reserved (s : State) : exec .reserved s = .next s := rfl

/-- What the command of a word does in `IDLE`: the load of the word's queue (R212), or nothing where it
has none (R213). -/
theorem exec_decodeCommand_eq_load (word : Word) {s : State} (hi : s.st = .idle) :
    exec (decodeCommand word) s = .next ((encodeQueue word).elim s s.loadQueue) := by
  have hacc (c : Queue) : s.acceptQueue c = s.loadQueue c := State.acceptQueue_of_idle c hi
  obtain h | h | h | h := fieldOp_cases word
  · rw [decodeCommand_of_op_zero h, encodeQueue_of_op_zero h, exec_setBrightness, hacc,
      Option.elim_some]
  · rw [decodeCommand_of_op_one h, encodeQueue_of_op_one h, exec_displayText, hacc,
      Option.elim_some]
  · rw [decodeCommand_of_op_two h, encodeQueue_of_op_two h, exec_displayNumber, hacc,
      Option.elim_some]
  · rw [decodeCommand_of_op_three h, encodeQueue_of_op_three h, exec_reserved,
      Option.elim_none]

/-- Settles O30: the queue encoded from the bits of a word is the queue of the command it decodes to. -/
theorem acceptanceLoadsTheEncodedQueue : Obligations.AcceptanceLoadsTheEncodedQueue := by
  refine ⟨encodeQueue_eq_none_iff, fun word s hi => ?_⟩
  rw [exec_decodeCommand_eq_load word hi]
  cases encodeQueue word <;> rfl

/-! ### Offers (R211) -/

/-- Settles O27: by its OP the word is RESERVED, which leaves the state as the edge took its input. -/
theorem reservedChangesNothing : Obligations.ReservedChangesNothing := by
  refine ⟨exec_reserved, fun s word hi ⟨hrst, hvalid, hword⟩ hop => ⟨?_, decide_eq_true hi⟩⟩
  rw [step_accept hrst hi hvalid, hword, decodeCommand_of_op_three hop, exec_reserved]
  rfl

/-- Off `IDLE` the case of R218 is the same whatever is offered. -/
theorem State.action_congr_of_not_idle {s : State} {p p' : PortIn} (hi : s.st ≠ .idle)
    (hrst : p.rst = p'.rst) : s.action p = s.action p' := by
  unfold State.action
  rw [hrst]
  cases hst : s.st with
  | idle => exact absurd hst hi
  | _ => rfl

/-- With `RST = 1` the case of R218 is reset, whatever is offered. -/
theorem State.action_of_rst {s : State} {p : PortIn} (hrst : p.rst = true) : s.action p = .reset :=
  if_pos hrst

/-- An edge takes its ports `p` off the schedule and does the case of R218 for them, which does not look at
the inputs to come. -/
theorem step_withInputs_cons (s : State) (p : PortIn) (rest : List PortIn) :
    step { s with inputs := p :: rest } = perform (s.action p) { s with inputs := rest } := rfl

/-- Settles O38: an offer is looked at in `IDLE` without reset alone; elsewhere the case of the edge, and
so the edge, is the same. -/
theorem offersAreTakenExactlyInIdle : Obligations.OffersAreTakenExactlyInIdle := by
  refine ⟨fun s word hi hp => ?_, fun s word hi hp => step_hold (hp ▸ rfl) hi (hp ▸ rfl),
    fun s rest r v v' word word' h => ?_⟩
  · rw [step_accept (hp ▸ rfl) hi (hp ▸ rfl), hp]
    rfl
  · have haction : s.action ⟨r, v, word⟩ = s.action ⟨r, v', word'⟩ := by
      obtain hrst | hi := h
      · rw [State.action_of_rst hrst, State.action_of_rst hrst]
      · exact State.action_congr_of_not_idle hi rfl
    rw [step_withInputs_cons, step_withInputs_cons, haction]

/-! ### Running edges (R102, R214, R217) -/

/-- Settles O39: one lemma of the step for each clause; the pin op is executed as SET_LINE. -/
theorem delayCounterRule : Obligations.DelayCounterRule := by
  intro s hrst hst
  refine ⟨step_count hrst hst, fun hdly hdone => step_finish hrst hdone hdly, fun hdly hrun => ?_⟩
  have hop := State.opAt_of_running hrun
  exact ⟨_, _, hop, exec_setLine _ _ _, step_perform hrst hdly hop⟩

/-- Settles O40: the pending pin op is the row's, and `SetLine` as one record says what it changes. -/
theorem runningStepPerformsOnePinOp : Obligations.RunningStepPerformsOnePinOp := by
  intro s hrst hrun
  have hop := State.opAt_of_running hrun
  refine ⟨step_count hrst (.inl hrun), _, hop, fun hdly => ?_⟩
  rw [step_perform hrst hdly hop, State.setLine_eq]
  rfl

/-! ### The successor (R216) -/

namespace State

variable {s : State}

theorem nextPos_start (h : s.st = .start) :
    s.nextPos = if s.sub < 2 then ⟨.start, s.sub + 1, s.bit, s.bi⟩ else ⟨.bit, 0, 0, s.bi⟩ := by
  rw [State.nextPos, h]
  rfl

theorem nextPos_bit (h : s.st = .bit) :
    s.nextPos =
      if s.sub < 2 then ⟨.bit, s.sub + 1, s.bit, s.bi⟩
      else if s.bit < 7 then ⟨.bit, 0, s.bit + 1, s.bi⟩ else ⟨.ack, 0, s.bit, s.bi⟩ := by
  rw [State.nextPos, h]
  rfl

theorem nextPos_ack (h : s.st = .ack) :
    s.nextPos =
      if s.sub < 2 then ⟨.ack, s.sub + 1, s.bit, s.bi⟩
      else if s.closesFrame then ⟨.stop, 0, s.bit, s.bi⟩ else ⟨.bit, 0, 0, s.nextIndex⟩ := by
  rw [State.nextPos, h]
  rfl

theorem nextPos_stop (h : s.st = .stop) :
    s.nextPos =
      if s.sub < 3 then ⟨.stop, s.sub + 1, s.bit, s.bi⟩
      else if s.moreBytes then ⟨.start, 0, s.bit, s.nextIndex⟩ else ⟨.done, 0, s.bit, s.bi⟩ := by
  rw [State.nextPos, h]
  rfl

/-- For a queue that is not empty, `qlen - 1` does not wrap. -/
theorem toNat_qlen_sub_one (hq : s.qlen ≠ 0) : (s.qlen - 1).toNat + 1 = s.qlen.toNat := by
  bv_omega

theorem one_le_toNat_qlen (hq : s.qlen ≠ 0) : 1 ≤ s.qlen.toNat := by
  bv_omega

theorem lastByte_iff_eq_sub_one (hq : s.qlen ≠ 0) : s.lastByte = true ↔ s.bi = s.qlen - 1 := by
  have hsub := toNat_qlen_sub_one hq
  rw [State.lastByte_iff (one_le_toNat_qlen hq), ← BitVec.toNat_inj]
  omega

theorem moreBytes_iff_lt_sub_one (hq : s.qlen ≠ 0) : s.moreBytes = true ↔ s.bi < s.qlen - 1 := by
  have hsub := toNat_qlen_sub_one hq
  rw [State.moreBytes_iff (one_le_toNat_qlen hq), BitVec.lt_def]
  omega

theorem closesFrame_iff (hq : s.qlen ≠ 0) :
    s.closesFrame = true ↔ s.bi = s.qlen - 1 ∨ (s.brk = true ∧ s.bi = 0) := by
  rw [State.closesFrame, Bool.or_eq_true, Bool.and_eq_true, lastByte_iff_eq_sub_one hq, decide_eq_true_iff]

theorem nextIndex_of_ne_seven (hbi : s.bi ≠ 7) : s.nextIndex = s.bi + 1 := if_neg hbi

end State

/-- Settles O42: where `qlen - 1` and `j + 1` are numbers of the registers' widths, the tests of the
model's rows are those of the rule. -/
theorem fsmSuccessor : Obligations.FsmSuccessor := by
  refine fun s => ⟨State.nextPos_start, State.nextPos_bit, fun hst h => ?_, fun hst h => ?_⟩
  · rw [State.nextPos_ack hst]
    obtain hsub | ⟨hq, hbi⟩ := h
    · rw [if_pos hsub, if_pos hsub]
    · simp only [State.closesFrame_iff hq, State.nextIndex_of_ne_seven hbi]
  · rw [State.nextPos_stop hst]
    obtain hsub | ⟨hq, hbi⟩ := h
    · rw [if_pos hsub, if_pos hsub]
    · simp only [State.moreBytes_iff_lt_sub_one hq, State.nextIndex_of_ne_seven hbi]

/-! ### The pending pin op (R210, R215) -/

/-- A pin op is pending exactly in the running states (R210). -/
theorem State.opAt_isSome_iff (s : State) : s.opAt.isSome = true ↔ s.st.running = true := by
  rw [State.opAt]
  split <;> simp_all

/-- Only a stop has a step 3: elsewhere `sub` goes on inside 0..2, or starts again at 0 (R215, R216). -/
theorem State.nextPos_sub_le_two {s : State} (hrun : s.st.running = true) (hne : s.nextPos.st ≠ .stop) :
    s.nextPos.sub ≤ 2 := by
  have hsucc (hlt : s.sub < 2) : s.sub + 1 ≤ 2 := by bv_omega
  have hzero : (0 : BitVec 2) ≤ 2 := by decide
  cases hst : s.st with
  | start =>
    rw [State.nextPos_start hst]
    split_ifs with hlt
    exacts [hsucc hlt, hzero]
  | bit =>
    rw [State.nextPos_bit hst]
    split_ifs with hlt
    exacts [hsucc hlt, hzero, hzero]
  | ack =>
    rw [State.nextPos_ack hst]
    split_ifs with hlt
    exacts [hsucc hlt, hzero, hzero]
  | stop =>
    rw [State.nextPos_stop hst] at hne ⊢
    split_ifs at hne ⊢
    exacts [absurd rfl hne, hzero, hzero]
  | _ => simp [hst, FsmState.running] at hrun

/-- Settles O41: the row of each primitive is the list of the rule, and the queue's entries 0 to 5 are its
six bytes. -/
theorem pinOpSelection : Obligations.PinOpSelection := by
  intro s
  have hlt (hsub : s.sub ≤ 2) : s.sub.toNat < 3 := Nat.lt_succ_of_le hsub
  refine ⟨fun hst hsub => State.opAt_start hst (hlt hsub),
    fun hst hsub => ⟨s.q.entry s.bi, fun hbi => ?_, State.opAt_bit hst (hlt hsub)⟩,
    fun hst hsub => State.opAt_ack hst (hlt hsub), State.opAt_stop, s.opAt_isSome_iff,
    State.nextPos_sub_le_two⟩
  exact ByteQueue.getElem?_toList s.q (Nat.lt_succ_of_le hbi)

/-! ### Unused encodings (R223) -/

/-- `st` holds one of the encodings in use, `IDLE` to `DONE` (R34). -/
def FsmState.Used (st : FsmState) : Prop := st.code ≠ 6#3 ∧ st.code ≠ 7#3

theorem FsmState.used_iff (st : FsmState) :
    st.Used ↔ st = .idle ∨ st.running = true ∨ st = .done := by
  unfold FsmState.Used
  cases st <;> decide

theorem FsmState.code_unused_iff (st : FsmState) :
    st.code = 6#3 ∨ st.code = 7#3 ↔ st = .unused6 ∨ st = .unused7 := by
  cases st <;> decide

/-- No edge leads from an encoding in use to an unused one: a pin op is followed by a running state or
`DONE` (R216), a load by `START`, and every other edge keeps `st` or goes to `IDLE`. -/
theorem step_st_used {s t : State} (h : step s = .next t) (hs : s.st.Used) : t.st.Used := by
  have hidle : FsmState.Used .idle := (FsmState.used_iff _).2 (.inl rfl)
  have hstart : FsmState.Used .start := (FsmState.used_iff _).2 (.inr (.inl rfl))
  obtain ⟨-, rfl⟩ | ⟨-, -, rfl | ⟨_, rfl⟩ | ⟨_, _, _, -, rfl⟩⟩ | ⟨-, -, -, rfl⟩ |
    ⟨-, -, _, hop, rfl⟩ | ⟨-, -, rfl⟩ := step_cases h
  case inr.inr.inr.inl =>
    exact (FsmState.used_iff _).2 (.inr (State.nextPos_running (State.running_of_opAt hop).1))
  exacts [hidle, hs, hstart, hstart, hs, hidle]

/-- Settles O43: the encodings in use are kept by every edge, and an unused one takes the recovery edge. -/
theorem unusedEncodingsRecover : Obligations.UnusedEncodingsRecover := by
  obtain ⟨hsix, hseven⟩ : State.reset.st.Used := (FsmState.used_iff _).2 (.inl rfl)
  exact ⟨hsix, hseven, fun s t h hs6 hs7 => step_st_used h ⟨hs6, hs7⟩,
    fun s hrst hcode => step_recover hrst ((FsmState.code_unused_iff _).1 hcode)⟩

end Sys2Proof.Machine

/-! ## Reset (70_reset_and_hazards.md) -/

namespace Sys2Proof.Machine

/-- A reset edge leaves the block ready for a command (R219, R262). -/
@[simp] theorem State.resetEdge_cmdReady (s : State) : s.resetEdge.cmdReady = true := by
  simp [State.cmdReady]

/-- Settles O44: reset has priority over every other case of R218, so neither the state nor the offer
matters: the edge is `resetEdge`, whose registers are the reset values, and its trace is marked. -/
theorem resetEdgeFromAnyState : Obligations.ResetEdgeFromAnyState := by
  intro s hrst
  have hstep := step_reset hrst
  have hmark : s.takeInput.resetEdge.w = markReset s.w := w_of_step_reset hstep hrst
  exact ⟨_, hstep, rfl, rfl, rfl, rfl, rfl, rfl, rfl, rfl, rfl, rfl,
    State.resetEdge_cmdReady _, hmark⟩

end Sys2Proof.Machine

/-! ## The round trip of the encodings (30_encoding.md) -/

namespace Sys2Proof

/-- Settles O18: one lemma of the family `RoundTrip` for each constructor. -/
theorem decodeOfEncodeIsTheInstruction : Obligations.DecodeOfEncodeIsTheInstruction
  | .setBrightness level => Laws.RoundTrip.setBrightness level
  | .displayText sep len c0 c1 c2 c3 => Laws.RoundTrip.displayText sep len c0 c1 c2 c3
  | .displayNumber sep value => Laws.RoundTrip.displayNumber sep value
  | .reserved => Laws.RoundTrip.reserved
  | .texts sep str => Laws.RoundTrip.texts sep str
  | .off => Laws.RoundTrip.off
  | .setLine line level => Laws.RoundTrip.setLine line level
  | .start => Laws.RoundTrip.start
  | .stop => Laws.RoundTrip.stop
  | .skipAck => Laws.RoundTrip.skipAck
  | .writeBit v => Laws.RoundTrip.writeBit v
  | .writeByte b => Laws.RoundTrip.writeByte b
  | .lutRead c => Laws.RoundTrip.lutRead c
  | .wireBrightnessDisabled => Laws.RoundTrip.wireBrightnessDisabled
  | .wireBrightnessLevel x => Laws.RoundTrip.wireBrightnessLevel x
  | .wireDataMode => Laws.RoundTrip.wireDataMode
  | .wireAddress0 => Laws.RoundTrip.wireAddress0
  | .wireSegment pattern => Laws.RoundTrip.wireSegment pattern

end Sys2Proof

/-! ## The invariant (10_state.md, 41_framer.md, 45_dispatch_fsm.md) -/

namespace Sys2Proof.Machine

/-- Settles O49: at reset the FSM is in `IDLE`, both lines are released and `W` is empty. -/
theorem resetMeetsTheInvariant : Obligations.ResetMeetsTheInvariant where
  dlyBound := Config.settleCycles_pos
  idleDly := fun _ => rfl
  stLegal := by decide
  inRange := by decide
  entry := by decide
  queue := by decide
  opens := by decide
  closes := by decide
  clkLevel := rfl
  datLevel := rfl
  trace := rfl
  markers := .nil

/-! ### The edges of a running command -/

/-- Byte `j` of the queue is the first of its frame (R181). -/
def State.opensAt (s : State) (j : BitVec 3) : Bool := decide (j = 0) || (s.brk && decide (j = 1))

@[simp] theorem State.opensFrame_eq (s : State) : s.opensFrame = s.opensAt s.bi := rfl

@[simp] theorem State.moveTo_opensAt (p : FsmPos) (s : State) (j : BitVec 3) :
    (s.moveTo p).opensAt j = s.opensAt j := rfl

@[simp] theorem State.moveTo_byteAt (p : FsmPos) (s : State) (j : BitVec 3) :
    (s.moveTo p).byteAt j = s.byteAt j := rfl

/-- The pin op that each FSM position performs and the position it moves to, for registers in range
(R215, R216): what a performing edge can be. -/
inductive State.Edge (s : State) : PinOp → FsmPos → Prop
  | start0 : s.st = .start → s.sub = 0 → s.Edge .c1 ⟨.start, 1, s.bit, s.bi⟩
  | start1 : s.st = .start → s.sub = 1 → s.Edge .d1 ⟨.start, 2, s.bit, s.bi⟩
  | start2 : s.st = .start → s.sub = 2 → s.Edge .d0 ⟨.bit, 0, 0, s.bi⟩
  | bit0 : s.st = .bit → s.sub = 0 → s.Edge .c0 ⟨.bit, 1, s.bit, s.bi⟩
  | bit1 : s.st = .bit → s.sub = 1 →
      s.Edge ⟨.dat, (s.byteAt s.bi).getLsbD s.bit.toNat⟩ ⟨.bit, 2, s.bit, s.bi⟩
  | nextBit : s.st = .bit → s.sub = 2 → s.bit.toNat < 7 → s.Edge .c1 ⟨.bit, 0, s.bit + 1, s.bi⟩
  | lastBit : s.st = .bit → s.sub = 2 → s.bit = 7 → s.Edge .c1 ⟨.ack, 0, s.bit, s.bi⟩
  | ack0 : s.st = .ack → s.sub = 0 → s.Edge .c0 ⟨.ack, 1, s.bit, s.bi⟩
  | ack1 : s.st = .ack → s.sub = 1 → s.Edge .c1 ⟨.ack, 2, s.bit, s.bi⟩
  | close : s.st = .ack → s.sub = 2 → s.closesFrame = true → s.Edge .c0 ⟨.stop, 0, s.bit, s.bi⟩
  | nextByte : s.st = .ack → s.sub = 2 → s.closesFrame = false →
      s.Edge .c0 ⟨.bit, 0, 0, s.bi + 1⟩
  | stop0 : s.st = .stop → s.sub = 0 → s.Edge .c0 ⟨.stop, 1, s.bit, s.bi⟩
  | stop1 : s.st = .stop → s.sub = 1 → s.Edge .d0 ⟨.stop, 2, s.bit, s.bi⟩
  | stop2 : s.st = .stop → s.sub = 2 → s.Edge .c1 ⟨.stop, 3, s.bit, s.bi⟩
  | nextFrame : s.st = .stop → s.sub = 3 → s.moreBytes = true →
      s.Edge .d1 ⟨.start, 0, s.bit, s.bi + 1⟩
  | finish : s.st = .stop → s.sub = 3 → s.moreBytes = false → s.Edge .d1 ⟨.done, 0, s.bit, s.bi⟩

theorem sub_cases (sub : BitVec 2) : sub = 0 ∨ sub = 1 ∨ sub = 2 ∨ sub = 3 := by
  revert sub
  decide

theorem sub_cases_of_le {sub : BitVec 2} (h : sub.toNat ≤ 2) : sub = 0 ∨ sub = 1 ∨ sub = 2 := by
  revert sub
  decide

/-- In range, the pending pin op and the successor are those of one of the edges. -/
theorem State.edge_of_opAt {s : State} {op : PinOp} (hr : s.fsmInRange = true)
    (ho : s.opAt = some op) : s.Edge op s.nextPos := by
  obtain ⟨hrun, -⟩ := State.running_of_opAt ho
  obtain ⟨-, -, hbi, hsub⟩ := s.fsmInRange_iff.1 hr
  have hnext : s.nextIndex = s.bi + 1 := State.nextIndex_eq (by omega)
  cases hst : s.st with
  | start =>
    rw [hst] at hsub
    rw [State.opAt_start hst (Nat.lt_succ_of_le hsub)] at ho
    rw [State.nextPos_start hst]
    obtain h | h | h := sub_cases_of_le hsub <;> rw [h] at ho ⊢ <;> cases ho
    exacts [.start0 hst h, .start1 hst h, .start2 hst h]
  | bit =>
    rw [hst] at hsub
    rw [State.opAt_bit hst (Nat.lt_succ_of_le hsub)] at ho
    rw [State.nextPos_bit hst]
    obtain h | h | h := sub_cases_of_le hsub <;> rw [h] at ho ⊢ <;> cases ho
    · exact .bit0 hst h
    · exact .bit1 hst h
    · by_cases h7 : s.bit < 7
      · rw [if_neg (by decide), if_pos h7]
        exact .nextBit hst h h7
      · rw [if_neg (by decide), if_neg h7]
        exact .lastBit hst h (by bv_omega)
  | ack =>
    rw [hst] at hsub
    rw [State.opAt_ack hst (Nat.lt_succ_of_le hsub)] at ho
    rw [State.nextPos_ack hst, hnext]
    obtain h | h | h := sub_cases_of_le hsub <;> rw [h] at ho ⊢ <;> cases ho
    · exact .ack0 hst h
    · exact .ack1 hst h
    · cases hc : s.closesFrame
      · exact .nextByte hst h hc
      · exact .close hst h hc
  | stop =>
    rw [State.opAt_stop hst] at ho
    rw [State.nextPos_stop hst, hnext]
    obtain h | h | h | h := sub_cases s.sub <;> rw [h] at ho ⊢ <;> cases ho
    · exact .stop0 hst h
    · exact .stop1 hst h
    · exact .stop2 hst h
    · cases hm : s.moreBytes
      · exact .finish hst h hm
      · exact .nextFrame hst h hm
  | _ => simp [hst, FsmState.running] at hrun

namespace State.Edge

variable {s : State} {op : PinOp} {p : FsmPos}

theorem running (he : s.Edge op p) : s.st.running = true := by
  cases he <;> simp [*, FsmState.running]

/-- No edge leads to `IDLE` or to an unused encoding (R216). -/
theorem st_used (he : s.Edge op p) : p.st ≠ .idle ∧ p.st ≠ .unused6 ∧ p.st ≠ .unused7 := by
  cases he <;> simp

/-- `sub` stays a step of its primitive (R215). -/
theorem sub_le_lastSub (he : s.Edge op p) : p.sub.toNat ≤ p.st.lastSub := by
  cases he <;> simp [FsmState.lastSub]

variable (h : s.Inv) (he : s.Edge op p)
include h he

theorem fsmInRange : s.fsmInRange = true := h.inRange he.running

theorem one_le_qlen : 1 ≤ s.qlen.toNat := (s.fsmInRange_iff.1 (he.fsmInRange h)).1

theorem toNat_bi_add_one : (s.bi + 1).toNat = s.bi.toNat + 1 := by
  obtain ⟨-, -, hbi, -⟩ := s.fsmInRange_iff.1 (he.fsmInRange h)
  bv_omega

/-- A frame that does not close has a next byte in the queue. -/
theorem lt_qlen_of_not_closesFrame (hc : s.closesFrame = false) :
    s.bi.toNat + 1 < s.qlen.toNat := by
  have hlast : ¬s.lastByte = true := fun hl => by simp [State.closesFrame, hl] at hc
  rw [State.lastByte_iff (he.one_le_qlen h)] at hlast
  have := h.entry he.running
  omega

/-- `bi` stays the index of a byte of the queue (R216). -/
theorem bi_lt_qlen : p.bi.toNat < s.qlen.toNat := by
  have hbi := h.entry he.running
  have hsucc := he.toNat_bi_add_one h
  have hlt := he.lt_qlen_of_not_closesFrame h
  have hmore := State.moreBytes_iff (he.one_le_qlen h)
  cases he
  case nextByte hc => exact hsucc.trans_lt (hlt hc)
  case nextFrame hm => exact hsucc.trans_lt (hmore.1 hm)
  all_goals exact hbi

theorem moveTo_fsmInRange : (s.moveTo p).fsmInRange = true := by
  obtain ⟨hone, hsix, -, -⟩ := s.fsmInRange_iff.1 (he.fsmInRange h)
  have := he.bi_lt_qlen h
  exact (State.fsmInRange_iff _).2 ⟨hone, hsix, by rw [State.moveTo_bi]; omega, he.sub_le_lastSub⟩

/-- A stop that more bytes follow closed the frame of byte 0, at the frame break (R181). -/
theorem brk_of_nextFrame (hst : s.st = .stop) (hm : s.moreBytes = true) :
    s.brk = true ∧ s.bi = 0 := by
  have hmore := (State.moreBytes_iff (he.one_le_qlen h)).1 hm
  have hlast : ¬s.lastByte = true := by
    rw [State.lastByte_iff (he.one_le_qlen h)]
    omega
  simpa [State.closesFrame, hlast] using h.closes hst

/-- A start opens a frame (R181). -/
theorem opensFrame (hp : p.st = .start) : s.opensAt p.bi = true := by
  have hopen := h.opens
  have hbrk := he.brk_of_nextFrame h
  cases he
  case start0 hst _ => exact hopen hst
  case start1 hst _ => exact hopen hst
  case nextFrame hst _ hm =>
    obtain ⟨hb, hi⟩ := hbrk hst hm
    simp [State.opensAt, hb, hi]
  all_goals cases hp

/-- A stop closes a frame (R181, R216). -/
theorem closesFrame (hp : p.st = .stop) : (s.moveTo p).closesFrame = true := by
  have hclose := h.closes
  cases he
  case close hc => exact hc
  case stop0 hst _ => exact hclose hst
  case stop1 hst _ => exact hclose hst
  case stop2 hst _ => exact hclose hst
  all_goals cases hp

/-- The byte after one that closes no frame opens none. -/
theorem not_opensAt_of_nextByte (hc : s.closesFrame = false) :
    s.opensAt (s.bi + 1#3) = false := by
  have hsucc := he.toNat_bi_add_one h
  have hne : s.bi + 1#3 ≠ 0 := by bv_omega
  have hbrk : s.brk = true → s.bi + 1#3 ≠ 1 := fun hb h1 => by
    have hi : s.bi = 0 := by bv_omega
    simp [State.closesFrame, hb, hi] at hc
  rw [State.opensAt, decide_eq_false hne]
  simpa using hbrk

/-- The pin op leaves the clock line where the next FSM position has it (R125). -/
theorem clkBefore : (s.moveTo p).clkBefore = (op.levels (s.clkO, s.datO)).1 := by
  have hclk := h.clkLevel
  have hopen := h.opens
  have hnot := he.not_opensAt_of_nextByte h
  rw [State.opensFrame_eq] at hopen
  cases he
  case start2 hst hsub => simp [State.clkBefore, PinOp.levels, hclk, hst, hopen hst]
  case nextBit hlt =>
    have hne : s.bit + 1#3 ≠ 0#3 := by bv_omega
    simp [State.clkBefore, PinOp.levels, hne]
  case nextByte hc => simp [State.clkBefore, PinOp.levels, hnot hc]
  all_goals simp [State.clkBefore, PinOp.levels, *]

/-- The pin op leaves the data line where the next FSM position has it (R125, R128). -/
theorem datBefore : (s.moveTo p).datBefore = (op.levels (s.clkO, s.datO)).2 := by
  have hdat := h.datLevel
  have hopen := h.opens
  have hnot := he.not_opensAt_of_nextByte h
  rw [State.opensFrame_eq] at hopen
  cases he
  case start2 hst hsub => simp [State.datBefore, PinOp.levels, hopen hst]
  case bit0 hst hsub =>
    simp [State.datBefore, PinOp.levels, hdat, hst, hsub]
  case nextBit hst hsub hlt =>
    have hne : s.bit + 1#3 ≠ 0#3 := by bv_omega
    have hmod : (s.bit.toNat + 1) % 8 - 1 = s.bit.toNat := by omega
    simp [State.datBefore, PinOp.levels, hne, hdat, hst, hsub, hmod]
  case nextByte hst hsub hc => simp [State.datBefore, PinOp.levels, hdat, hst, hnot hc]
  all_goals simp [State.datBefore, PinOp.levels, *]

end State.Edge

/-! ### The lines and `W` -/

@[simp] theorem Obs.levels_pin (op : PinOp) (l : Bool × Bool) :
    (Obs.pin op).levels l = op.levels l := by
  obtain ⟨line, v⟩ := op
  cases line <;> rfl

theorem lineLevels_append_pin (w : List Obs) (op : PinOp) :
    lineLevels (w ++ [.pin op]) = op.levels (lineLevels w) := by
  simp [lineLevels]

/-- A marked trace leaves both lines released (R260). -/
theorem lineLevels_markReset (w : List Obs) : lineLevels (markReset w) = (true, true) := by
  unfold markReset
  split
  case isTrue hlast =>
    obtain ⟨w', rfl⟩ := List.getLast?_eq_some_iff.1 hlast
    simp [lineLevels, Obs.levels]
  case isFalse => simp [lineLevels, Obs.levels]

/-- No two reset markers are adjacent (R44). -/
def SingleMarkers (w : List Obs) : Prop := w.IsChain (fun a b => a = .rst → b ≠ .rst)

theorem SingleMarkers.append_pin {w : List Obs} (h : SingleMarkers w) (op : PinOp) :
    SingleMarkers (w ++ [.pin op]) :=
  List.isChain_append.2 ⟨h, .singleton _, by simp⟩

theorem SingleMarkers.markReset {w : List Obs} (h : SingleMarkers w) :
    SingleMarkers (markReset w) := by
  unfold Machine.markReset
  split
  case isTrue => exact h
  case isFalse hlast =>
    refine List.isChain_append.2 ⟨h, .singleton _, fun a ha b _ hrst => ?_⟩
    rw [hrst] at ha
    exact absurd ha hlast

/-! ### Legal queues -/

theorem isBrightnessByte_brightnessByte (level : BitVec 4) :
    isBrightnessByte (brightnessByte level) = true := by
  revert level
  decide

/-- The one byte of SET_BRIGHTNESS (R91). -/
theorem queueLegal_loadQueue_brightnessQueue (level : BitVec 4) (s : State) :
    (s.loadQueue (brightnessQueue level)).queueLegal = true :=
  isBrightnessByte_brightnessByte level

theorem toNat_qlen_loadQueue_brightnessQueue (level : BitVec 4) (s : State) :
    (s.loadQueue (brightnessQueue level)).qlen.toNat = 1 := rfl

theorem toNat_qlen_loadQueue_textQueue {n : Nat} (hn : n ≤ 4) (sep : Bool) (chars : List Byte)
    (s : State) : (s.loadQueue (textQueue sep n chars)).qlen.toNat = n + 2 := by
  rw [State.loadQueue_qlen, length_textQueue, BitVec.toNat_ofNat]
  omega

/-- The bytes of a text queue (R96, R188). -/
theorem queueLegal_loadQueue_textQueue {n : Nat} (hn : n ≤ 4) (sep : Bool) (chars : List Byte)
    (s : State) : (s.loadQueue (textQueue sep n chars)).queueLegal = true := by
  have hbrk : (s.loadQueue (textQueue sep n chars)).brk = true := rfl
  have hbit (i : Nat) (c : Byte) : (if i < n then seg c else 0#8)[7] = false := by
    split
    · exact getLsbD_seven_seg c
    · exact BitVec.getElem_zero _
  rw [State.queueLegal, if_pos hbrk, toNat_qlen_loadQueue_textQueue hn, State.loadQueue_q,
    ofList_textQueue]
  simp [hn, hbit]

/-! ### Every edge keeps the invariant -/

namespace State.Inv

variable {s : State}

theorem takeInput (h : s.Inv) : s.takeInput.Inv :=
  ⟨h.dlyBound, h.idleDly, h.stLegal, h.inRange, h.entry, h.queue, h.opens, h.closes, h.clkLevel,
    h.datLevel, h.trace, h.markers⟩

/-- A reset edge (R260). -/
theorem resetEdge (h : s.Inv) : s.resetEdge.Inv where
  dlyBound := Config.settleCycles_pos
  idleDly := fun _ => rfl
  stLegal := by simp
  inRange := nofun
  entry := nofun
  queue := fun hne => absurd rfl hne
  opens := nofun
  closes := nofun
  clkLevel := rfl
  datLevel := rfl
  trace := lineLevels_markReset s.w
  markers := SingleMarkers.markReset h.markers

/-- The load of a legal queue (R212). -/
theorem loadQueue (h : s.Inv) (hi : s.st = .idle) {c : Queue}
    (hlegal : (s.loadQueue c).queueLegal = true) (hlen : 1 ≤ (s.loadQueue c).qlen.toNat ∧
      (s.loadQueue c).qlen.toNat ≤ 6) : (s.loadQueue c).Inv where
  dlyBound := Config.settleCycles_pos
  idleDly := nofun
  stLegal := by simp
  inRange := fun _ => (State.fsmInRange_iff _).2 ⟨hlen.1, hlen.2, Nat.zero_le _, Nat.zero_le _⟩
  entry := fun _ => hlen.1
  queue := fun _ => hlegal
  opens := fun _ => rfl
  closes := nofun
  clkLevel := h.clkLevel.trans (by rw [State.clkBefore, hi]; rfl)
  datLevel := h.datLevel.trans (by rw [State.datBefore, hi]; rfl)
  trace := h.trace
  markers := h.markers

/-- A counting edge (R102). -/
theorem countDown (h : s.Inv) (hd : s.dly ≠ 0) : s.countDown.Inv where
  dlyBound := by
    rw [State.countDown_dly, Config.toNat_delay_sub_one hd]
    exact (Nat.sub_le _ _).trans_lt h.dlyBound
  idleDly := fun hi => absurd (h.idleDly hi) hd
  stLegal := h.stLegal
  inRange := h.inRange
  entry := h.entry
  queue := h.queue
  opens := h.opens
  closes := h.closes
  clkLevel := h.clkLevel
  datLevel := h.datLevel
  trace := h.trace
  markers := h.markers

/-- A performing edge (R214). -/
theorem performed (h : s.Inv) {op : PinOp} {p : FsmPos} (he : s.Edge op p) :
    ((s.setLine op.line op.level).moveTo p).Inv := by
  have hnext := he.st_used
  have hbusy : s.st ≠ .idle := fun hi => by simpa [hi, FsmState.running] using he.running
  have hrange := he.moveTo_fsmInRange h
  have hentry := he.bi_lt_qlen h
  have hopens := he.opensFrame h
  have hcloses := he.closesFrame h
  rw [State.setLine_eq]
  exact {
    dlyBound := Config.toNat_load.trans_lt (Nat.sub_lt Config.settleCycles_pos Nat.one_pos)
    idleDly := fun hi => absurd hi hnext.1
    stLegal := hnext.2
    inRange := fun _ => hrange
    entry := fun _ => hentry
    queue := fun _ => h.queue hbusy
    opens := hopens
    closes := hcloses
    clkLevel := (he.clkBefore h).symm
    datLevel := (he.datBefore h).symm
    trace := by rw [State.moveTo_w, lineLevels_append_pin, h.trace]; rfl
    markers := SingleMarkers.append_pin h.markers op }

/-- The end of a command (R217). -/
theorem toIdle (h : s.Inv) (hdone : s.st = .done) (hd : s.dly = 0) : s.toIdle.Inv where
  dlyBound := h.dlyBound
  idleDly := fun _ => hd
  stLegal := by simp
  inRange := nofun
  entry := nofun
  queue := fun hne => absurd rfl hne
  opens := nofun
  closes := nofun
  clkLevel := h.clkLevel.trans (by rw [State.clkBefore, hdone]; rfl)
  datLevel := h.datLevel.trans (by rw [State.datBefore, hdone]; rfl)
  trace := h.trace
  markers := h.markers

end State.Inv

/-- A performing edge of a state of the invariant is one of the edges. -/
theorem State.Inv.edge {s : State} (h : s.Inv) {op : PinOp} (ho : s.opAt = some op) :
    s.Edge op s.nextPos :=
  State.edge_of_opAt (h.inRange (State.running_of_opAt ho).1) ho

/-- Settles O50: one lemma of `Inv` for each kind of edge. -/
theorem everyStepKeepsTheInvariant : Obligations.EveryStepKeepsTheInvariant := by
  intro s t h hstep
  have hin := h.takeInput
  obtain ⟨-, rfl⟩ | ⟨-, hi, rfl | ⟨level, rfl⟩ | ⟨sep, n, chars, hn, rfl⟩⟩ | ⟨-, -, hd, rfl⟩ |
    ⟨-, -, op, ho, rfl⟩ | ⟨-, ⟨hdone, hd⟩ | hu | hu, rfl⟩ := step_cases hstep
  · exact hin.resetEdge
  · exact hin
  · refine hin.loadQueue hi (queueLegal_loadQueue_brightnessQueue level _) ?_
    rw [toNat_qlen_loadQueue_brightnessQueue]
    decide
  · refine hin.loadQueue hi (queueLegal_loadQueue_textQueue hn sep chars _) ?_
    rw [toNat_qlen_loadQueue_textQueue hn]
    omega
  · exact hin.countDown hd
  · exact hin.performed (hin.edge ho)
  · exact hin.toIdle hdone hd
  · exact absurd hu h.stLegal.1
  · exact absurd hu h.stLegal.2

/-! ### The data line under a high clock (R126) -/

/-- Of the pin ops that set the data line, only the third of a start and the fourth of a stop find the
clock high and the line at the other level. -/
theorem State.Edge.data_edge {s : State} {op : PinOp} {p : FsmPos} (h : s.Inv) (he : s.Edge op p)
    (hclk : s.clkO = true) (hdat : (op.levels (s.clkO, s.datO)).2 ≠ s.datO) :
    (s.st = .start ∧ s.sub = 2 ∧ op = .d0) ∨ (s.st = .stop ∧ s.sub = 3 ∧ op = .d1) := by
  have hc := h.clkLevel.symm.trans hclk
  have hd := h.datLevel
  cases he
  case start1 hst _ => simp [State.datBefore, hst, PinOp.levels, hd] at hdat
  case start2 hst hsub => exact .inl ⟨hst, hsub, rfl⟩
  case bit1 hst hsub => simp [State.clkBefore, hst, hsub] at hc
  case stop1 hst hsub => simp [State.clkBefore, hst, hsub] at hc
  case nextFrame hst hsub _ => exact .inr ⟨hst, hsub, rfl⟩
  case finish hst hsub _ => exact .inr ⟨hst, hsub, rfl⟩
  all_goals exact absurd rfl hdat

/-- Settles O52: without reset only a performing edge moves a line. -/
theorem dataEdgesUnderAHighClock : Obligations.DataEdgesUnderAHighClock := by
  intro s t h hstep hrst hclk hne
  cases ho : s.opAt with
  | none => exact absurd (trace_of_step_not_due hstep hrst (.inr ho)).2.2 hne
  | some op =>
    by_cases hd : s.dly = 0
    · obtain ⟨-, -, hdat⟩ := trace_of_step_perform hstep hrst hd ho
      obtain ⟨hst, hsub, rfl⟩ | ⟨hst, hsub, rfl⟩ :=
        (h.edge ho).data_edge h hclk (fun heq => hne (hdat.trans heq))
      · exact .inl ⟨hst, hsub, hdat⟩
      · exact .inr ⟨hst, hsub, hdat⟩
    · exact absurd (trace_of_step_not_due hstep hrst (.inl hd)).2.2 hne

/-! ### Runs (R240) -/

/-- Executing an instruction answers a next state (R240). -/
theorem exec_answers (i : Instr) (s : State) : ∃ t, exec i s = .next t := by
  cases i <;> exact ⟨_, rfl⟩

/-- Settles O47: every case of R218 answers a next state. -/
theorem everyStateSteps : Obligations.EveryStateSteps := by
  intro s
  unfold step
  cases s.action s.portIn with
  | accept i => exact exec_answers i _
  | _ => exact ⟨_, rfl⟩

/-- Settles O51: by induction on the number of edges. -/
theorem invariantRunsGoOn : Obligations.InvariantRunsGoOn := by
  intro s h n
  induction n generalizing s with
  | zero => exact ⟨s, runsTo_zero.2 rfl, h⟩
  | succ n ih =>
    obtain ⟨u, hstep⟩ := everyStateSteps s
    obtain ⟨t, hrun, ht⟩ := ih u (everyStepKeepsTheInvariant s u h hstep)
    exact ⟨t, runsTo_succ hstep hrun, ht⟩

end Sys2Proof.Machine

/-! ## The reference receiver (41_framer.md section 2) -/

namespace Sys2Proof.Machine

/-! ### The bits of a byte (R127) -/

/-- The byte of which the receiver has the first `k` bits: the others are 0 still. -/
def lowBits (k : Nat) (b : Byte) : Byte := (b.setWidth k).setWidth 8

@[simp] theorem lowBits_zero (b : Byte) : lowBits 0 b = 0 := by
  simp [lowBits, BitVec.of_length_zero]

@[simp] theorem lowBits_eight (b : Byte) : lowBits 8 b = b := by
  simp [lowBits]

theorem getLsbD_lowBits (k : Nat) (b : Byte) {i : Nat} (hi : i < 8) :
    (lowBits k b).getLsbD i = (decide (i < k) && b.getLsbD i) := by
  simp [lowBits, hi]

theorem getLsbD_setBit (b : Byte) (k : Nat) (d : Bool) {i : Nat} (hi : i < 8) :
    (setBit b k d).getLsbD i = if i = k then d else b.getLsbD i := by
  have hbit : (1#8 <<< k).getLsbD i = decide (i = k) := by
    have hpow : 1#8 <<< k = BitVec.twoPow 8 k := rfl
    rw [hpow, BitVec.getLsbD_twoPow]
    by_cases hik : k = i
    · simp [hik, hi]
    · simp [hik, Ne.symm hik]
  cases d with
  | true =>
    rw [setBit, if_pos rfl, BitVec.getLsbD_or, hbit]
    by_cases hik : i = k <;> simp [hik]
  | false =>
    rw [setBit, if_neg (by decide), BitVec.getLsbD_and, BitVec.getLsbD_not, hbit]
    by_cases hik : i = k <;> simp [hik, hi]

/-- Bit `k` completes the first `k + 1` bits. -/
theorem setBit_lowBits (k : Nat) (b : Byte) :
    setBit (lowBits k b) k (b.getLsbD k) = lowBits (k + 1) b := by
  refine BitVec.eq_of_getLsbD_eq fun i hi => ?_
  rw [getLsbD_setBit _ _ _ hi, getLsbD_lowBits _ _ hi, getLsbD_lowBits _ _ hi]
  split
  case isTrue hik => simp [hik]
  case isFalse hik =>
    have hlt : i < k + 1 ↔ i < k := by omega
    rw [decide_eq_decide.2 hlt]

namespace Receiver

variable {r : Receiver}

/-! ### Pin ops -/

/-- A falling clock edge reads nothing. -/
@[simp] theorem pin_c0 (r : Receiver) : r.pin .c0 = { r with c := false } := by
  simp [pin]

/-- While the clock is low the data line only takes its level. -/
theorem pin_dat_of_low (v : Bool) (hc : r.c = false) : r.pin ⟨.dat, v⟩ = { r with d := v } := by
  simp [pin, hc]

/-- A released clock line that is released again is no edge. -/
theorem pin_c1_of_high (hc : r.c = true) : r.pin .c1 = r := by
  cases r
  simp_all [pin]

/-- A rising clock edge inside a frame (R127). -/
theorem pin_c1_of_low {bytes : List Byte} (hc : r.c = false) (hcur : r.cur = some bytes) :
    r.pin .c1 = ({ r with c := true } : Receiver).risingEdge bytes := by
  simp [pin, hc, hcur]

/-- A released data line that is released again is no edge. -/
theorem pin_d1_of_high (hd : r.d = true) : r.pin .d1 = r := by
  cases r
  simp_all [pin]

/-- The start of a frame: the data line falls under a high clock (R127). -/
theorem pin_d0_of_released (hc : r.c = true) (hd : r.d = true) :
    r.pin .d0 = { r with d := false, cur := some [], edges := 0 } := by
  cases r
  simp_all [pin]

/-- The end of a frame: the data line rises under a high clock (R127). -/
theorem pin_d1_of_low (hc : r.c = true) (hd : r.d = false) :
    r.pin .d1 = { r with d := true, frames := r.frames ++ r.cur.toList, cur := none } := by
  cases r
  simp_all [pin]

/-- A rising edge at which bit `k` of a byte is read. -/
theorem risingEdge_bit {b : Byte} {k : Nat} (bytes : List Byte) (hk : k < 8) (he : r.edges % 9 = k)
    (hb : k = 0 ∨ r.byte = lowBits k b) (hd : r.d = b.getLsbD k) :
    r.risingEdge bytes = { r with edges := r.edges + 1, byte := lowBits (k + 1) b } := by
  have hmod : (r.edges + 1) % 9 = k + 1 := by omega
  have hbyte : (if k = 0 then 0 else r.byte) = lowBits k b := by
    split
    · simp [*]
    · exact hb.resolve_left ‹_›
  simp [risingEdge, hmod, hd, ← setBit_lowBits, ← hbyte]

/-- The rising edge of the acknowledgment slot, which ends a byte. -/
theorem risingEdge_ack (bytes : List Byte) (he : r.edges % 9 = 8) :
    r.risingEdge bytes = { r with edges := r.edges + 1, cur := some (bytes ++ [r.byte]) } := by
  have hmod : (r.edges + 1) % 9 = 0 := by omega
  simp [risingEdge, hmod]

/-! ### Primitives -/

/-- The receiver after pin ops. -/
def runOps (ops : List PinOp) (r : Receiver) : Receiver := r.run (ops.map .pin)

@[simp] theorem runOps_nil (r : Receiver) : r.runOps [] = r := rfl

@[simp] theorem runOps_cons (op : PinOp) (ops : List PinOp) (r : Receiver) :
    r.runOps (op :: ops) = (r.pin op).runOps ops := rfl

theorem runOps_append (as bs : List PinOp) (r : Receiver) :
    r.runOps (as ++ bs) = (r.runOps as).runOps bs := by
  simp [runOps, run]

/-- A start from released lines opens a frame. -/
theorem runOps_start (hc : r.c = true) (hd : r.d = true) :
    r.runOps traceStart = { r with d := false, cur := some [], edges := 0 } := by
  simp only [traceStart, runOps_cons, runOps_nil]
  rw [pin_c1_of_high hc, pin_d1_of_high hd, pin_d0_of_released hc hd]

/-- One bit is one rising edge with the data line at its level. -/
theorem runOps_writeBit {bytes : List Byte} (v : Bool) (hcur : r.cur = some bytes) :
    r.runOps (traceWriteBit v) = ({ r with c := true, d := v } : Receiver).risingEdge bytes := by
  have hdat := pin_dat_of_low (r := { r with c := false }) v rfl
  have hrise := pin_c1_of_low (r := { r with c := false, d := v }) rfl hcur
  simp only [traceWriteBit, runOps_cons, runOps_nil, pin_c0, hdat, hrise]

/-- The first `k + 1` bits of a byte. -/
theorem runOps_bits {bytes : List Byte} (b : Byte) {k : Nat} (hk : k < 8) (hcur : r.cur = some bytes)
    (he : r.edges % 9 = 0) :
    r.runOps ((List.range (k + 1)).flatMap fun i => traceWriteBit (b.getLsbD i)) =
      ⟨true, b.getLsbD k, r.frames, some bytes, r.edges + (k + 1), lowBits (k + 1) b⟩ := by
  induction k with
  | zero =>
    have hbit := risingEdge_bit (r := { r with c := true, d := b.getLsbD 0 }) bytes hk he (.inl rfl) rfl
    rw [List.range_one, List.flatMap_singleton, runOps_writeBit _ hcur, hbit, hcur]
  | succ k ih =>
    rw [List.range_succ, List.flatMap_append, runOps_append, ih (by omega), List.flatMap_singleton,
      runOps_writeBit _ rfl, risingEdge_bit bytes hk (by simp; omega) (.inr rfl) rfl]
    rfl

/-- A byte: its eight bits, read without the acknowledgment. -/
theorem runOps_writeByte {bytes : List Byte} (b : Byte) (hcur : r.cur = some bytes)
    (he : r.edges % 9 = 0) :
    r.runOps (traceWriteByte b) = ⟨true, b.getLsbD 7, r.frames, some bytes, r.edges + 8, b⟩ := by
  have h := runOps_bits b (k := 7) (by decide) hcur he
  rwa [lowBits_eight] at h

/-- The acknowledgment skip appends the byte to the frame. -/
theorem runOps_skipAck {bytes : List Byte} (hcur : r.cur = some bytes) (he : r.edges % 9 = 8) :
    r.runOps traceSkipAck =
      { r with c := false, edges := r.edges + 1, cur := some (bytes ++ [r.byte]) } := by
  have hrise := pin_c1_of_low (r := { r with c := false }) rfl hcur
  have hack := risingEdge_ack (r := { r with c := true }) bytes he
  simp only [traceSkipAck, runOps_cons, runOps_nil, pin_c0, hrise, hack]

/-! ### Frames -/

/-- Inside a frame with the given bytes, at a byte boundary, the frames before it kept. -/
structure InFrame (r : Receiver) (frames : List (List Byte)) (bytes : List Byte) : Prop where
  frames : r.frames = frames
  cur : r.cur = some bytes
  boundary : r.edges % 9 = 0

/-- Between frames: both lines released. -/
structure Released (r : Receiver) (frames : List (List Byte)) : Prop where
  c : r.c = true
  d : r.d = true
  frames : r.frames = frames

variable {frames : List (List Byte)} {acc : List Byte}

theorem Released.start (h : r.Released frames) : (r.runOps traceStart).InFrame frames [] := by
  rw [runOps_start h.c h.d]
  exact ⟨h.frames, rfl, rfl⟩

theorem InFrame.byte (h : r.InFrame frames acc) (b : Byte) :
    (r.runOps (traceWriteByte b ++ traceSkipAck)).InFrame frames (acc ++ [b]) := by
  have he := h.boundary
  rw [runOps_append, runOps_writeByte b h.cur he, runOps_skipAck rfl (by simp; omega)]
  exact ⟨h.frames, rfl, by simp; omega⟩

theorem InFrame.bytes (h : r.InFrame frames acc) (bs : List Byte) :
    (r.runOps (bs.flatMap fun b => traceWriteByte b ++ traceSkipAck)).InFrame frames (acc ++ bs) := by
  induction bs generalizing r acc with
  | nil => simpa using h
  | cons b bs ih =>
    rw [List.flatMap_cons, runOps_append]
    simpa using ih (h.byte b)

/-- The clock edge of a stop begins a byte that the stop gives up; the frame is closed without it. -/
theorem InFrame.stop (h : r.InFrame frames acc) :
    (r.runOps traceStop).Released (frames ++ [acc]) := by
  have hdat := pin_dat_of_low (r := { r with c := false }) false rfl
  have hrise := pin_c1_of_low (r := { r with c := false, d := false }) rfl h.cur
  have hbit := risingEdge_bit (r := { r with c := true, d := false }) (b := 0) acc (by decide)
    h.boundary (.inl rfl) rfl
  simp only [traceStop, runOps_cons, runOps_nil, pin_c0, hdat, hrise, hbit]
  rw [pin_d1_of_low rfl rfl]
  exact ⟨rfl, rfl, by simp [h.frames, h.cur]⟩

/-- From released lines a frame is read as its bytes. -/
theorem Released.frame (h : r.Released frames) (bs : List Byte) :
    (r.runOps (frame bs)).Released (frames ++ [bs]) := by
  rw [Machine.frame, runOps_append, runOps_append]
  exact (h.start.bytes bs).stop

theorem Released.runFrames (h : r.Released frames) (frs : List (List Byte)) :
    (r.runOps (frs.flatMap Machine.frame)).Released (frames ++ frs) := by
  induction frs generalizing r frames with
  | nil => simpa using h
  | cons bs frs ih =>
    rw [List.flatMap_cons, runOps_append]
    simpa using ih (h.frame bs)

end Receiver

/-- The receiver reads every sequence of frames back. -/
theorem decodeTrace_frames (frs : List (List Byte)) :
    decodeTrace ((frs.flatMap frame).map .pin) = frs :=
  (Receiver.Released.runFrames (r := Receiver.init) ⟨rfl, rfl, rfl⟩ frs).frames

/-- Settles O59: a command's expansion is the trace of its frames. -/
theorem receiverReadsTheFramesBack : Obligations.ReceiverReadsTheFramesBack :=
  ⟨fun frs _ => decodeTrace_frames frs, fun _ c _ => decodeTrace_frames c.frames⟩

/-! ## Data edges under a high clock, frame by frame (41_framer.md section 2) -/

theorem highDataEdges_append (as bs : List PinOp) (l : Bool × Bool) :
    highDataEdges (as ++ bs) l = highDataEdges as l + highDataEdges bs (levelsAfter as l) := by
  induction as generalizing l with
  | nil => simp [highDataEdges]
  | cons op as ih => simp [highDataEdges, ih, Nat.add_assoc]

/-- A start has one, from released lines (R126). -/
theorem highDataEdges_start : highDataEdges traceStart (true, true) = 1 := rfl

/-- A stop has one: the data line goes low under a low clock, and rises under a high one (R126). -/
theorem highDataEdges_stop (l : Bool × Bool) : highDataEdges traceStop l = 1 := by
  simp [highDataEdges, traceStop, PinOp.levels]

theorem highDataEdges_skipAck (l : Bool × Bool) : highDataEdges traceSkipAck l = 0 := rfl

/-- A bit has none: its data pin op finds the clock low (R126). -/
theorem highDataEdges_writeBit (v : Bool) (l : Bool × Bool) :
    highDataEdges (traceWriteBit v) l = 0 := by
  simp [highDataEdges, traceWriteBit, PinOp.levels]

/-- A concatenation of traces without such an edge has none. -/
theorem highDataEdges_flatMap {α : Type} {f : α → List PinOp}
    (h : ∀ a l, highDataEdges (f a) l = 0) (as : List α) (l : Bool × Bool) :
    highDataEdges (as.flatMap f) l = 0 := by
  induction as generalizing l with
  | nil => rfl
  | cons a as ih => rw [List.flatMap_cons, highDataEdges_append, h, ih]

theorem highDataEdges_byte (b : Byte) (l : Bool × Bool) :
    highDataEdges (traceWriteByte b ++ traceSkipAck) l = 0 := by
  rw [highDataEdges_append, highDataEdges_skipAck, traceWriteByte,
    highDataEdges_flatMap fun i => highDataEdges_writeBit (b.getLsbD i)]

/-- A frame has two: its start and its stop. -/
theorem highDataEdges_frame (bs : List Byte) : highDataEdges (frame bs) (true, true) = 2 := by
  rw [frame, highDataEdges_append, highDataEdges_append, highDataEdges_start,
    highDataEdges_flatMap highDataEdges_byte, highDataEdges_stop]

/-- Each frame begins where the one before it left both lines: released. -/
theorem highDataEdges_frames (frs : List (List Byte)) :
    highDataEdges (frs.flatMap frame) (true, true) = 2 * frs.length := by
  induction frs with
  | nil => rfl
  | cons bs frs ih =>
    rw [List.flatMap_cons, highDataEdges_append, highDataEdges_frame, levelsAfter_frame, ih,
      List.length_cons]
    omega

/-- Settles O53: two for each frame, whatever its bytes. -/
theorem twoHighDataEdgesAFrame : Obligations.TwoHighDataEdgesAFrame :=
  fun frs _ => highDataEdges_frames frs

/-! ## The frames of a command and their pin ops (44_command_encoder.md) -/

/-! ### The queue of a word (R180) -/

/-- A word's queue is a brightness byte or a text queue of at most four characters. -/
theorem encodeQueue_cases {word : Word} {c : Queue} (h : encodeQueue word = some c) :
    (∃ level, c = brightnessQueue level) ∨ ∃ sep n chars, n ≤ 4 ∧ c = textQueue sep n chars := by
  obtain hop | hop | hop | hop := fieldOp_cases word
  · rw [encodeQueue_of_op_zero hop] at h
    cases h
    exact .inl ⟨_, rfl⟩
  · rw [encodeQueue_of_op_one hop] at h
    cases h
    exact .inr ⟨_, _, _, Nat.min_le_right _ _, rfl⟩
  · rw [encodeQueue_of_op_two hop] at h
    cases h
    exact .inr ⟨_, _, _, Nat.min_le_right _ _, rfl⟩
  · rw [encodeQueue_of_op_three hop] at h
    cases h

theorem frames_brightnessQueue (level : BitVec 4) :
    (brightnessQueue level).frames = [[brightnessByte level]] := rfl

theorem frames_textQueue (sep : Bool) (n : Nat) (chars : List Byte) :
    (textQueue sep n chars).frames =
      [[0x40#8], 0xC0#8 :: (List.range n).map fun i => dataByte sep i (chars.getD i 0)] := rfl

/-- Settles O34: the frames of the two forms of queue. -/
theorem framesOfEveryCommand : Obligations.FramesOfEveryCommand := by
  intro word c h
  obtain ⟨level, rfl⟩ | ⟨sep, n, chars, hn, rfl⟩ := encodeQueue_cases h
  · have hbyte := isBrightnessByte_brightnessByte level
    simp only [isBrightnessByte, Bool.and_eq_true, decide_eq_true_eq] at hbyte
    exact .inl ⟨_, hbyte.1, hbyte.2, frames_brightnessQueue level⟩
  · exact .inr ⟨_, by simpa using hn, frames_textQueue sep n chars⟩

/-! ### Counts -/

/-- Three pin ops of a start, 27 a byte, four of a stop. -/
theorem length_frame (bs : List Byte) : (frame bs).length = 7 + 27 * bs.length := by
  rw [frame, List.length_append, List.length_append, length_flatMap_bytes]
  simp [traceStart, traceStop]
  omega

theorem length_expand_brightnessQueue (level : BitVec 4) :
    (brightnessQueue level).expand.length = 34 := by
  simp [Queue.expand, frames_brightnessQueue, length_frame]

theorem length_expand_textQueue (sep : Bool) (n : Nat) (chars : List Byte) :
    (textQueue sep n chars).expand.length = 68 + 27 * n := by
  simp [Queue.expand, frames_textQueue, length_frame]
  omega

/-- Settles O35: the counts of the two forms of queue, for the character count of each command. -/
theorem pinOpCounts : Obligations.PinOpCounts := by
  refine ⟨length_frame, fun word c h => ?_⟩
  obtain hop | hop | hop | hop := fieldOp_cases word
  · rw [encodeQueue_of_op_zero hop] at h
    cases h
    simp [hop, length_expand_brightnessQueue]
  · rw [encodeQueue_of_op_one hop] at h
    cases h
    simp [hop, displayTextQueue, length_expand_textQueue, charCount, Config.nPos]
    omega
  · rw [encodeQueue_of_op_two hop] at h
    cases h
    simp [hop, displayNumberQueue, length_expand_textQueue, charCount, Config.nPos]
  · rw [encodeQueue_of_op_three hop] at h
    cases h

end Sys2Proof.Machine

/-! ## The walk of a command (45_dispatch_fsm.md section 3) -/

namespace Sys2Proof.Machine

/-! ### The registers that hold a queue -/

/-- The lengths of the queues the encoder builds: 1 to 6 bytes, and a byte after a frame break (R35). -/
structure Queue.Fits (c : Queue) : Prop where
  pos : 1 ≤ c.bytes.length
  le_six : c.bytes.length ≤ 6
  brk : c.brk = true → 2 ≤ c.bytes.length

theorem Queue.fits_of_encodeQueue {word : Word} {c : Queue} (h : encodeQueue word = some c) :
    c.Fits := by
  obtain ⟨level, rfl⟩ | ⟨sep, n, chars, hn, rfl⟩ := encodeQueue_cases h
  · exact ⟨le_rfl, Nat.le_add_left 1 5, nofun⟩
  · exact ⟨by simp, by rw [length_textQueue]; omega, fun _ => by simp⟩

/-- Byte `j` is the last of its frame (R181, R216). -/
def Queue.closes (c : Queue) (j : Nat) : Prop := j + 1 = c.bytes.length ∨ (c.brk = true ∧ j = 0)

/-- The block holds the queue `c` and stands at the first step of `fsm` for byte `j`. -/
structure State.Stands (c : Queue) (fsm : FsmState) (j : Nat) (s : State) : Prop where
  q : s.q = ByteQueue.ofList c.bytes
  qlen : s.qlen.toNat = c.bytes.length
  brk : s.brk = c.brk
  st : s.st = fsm
  sub : s.sub = 0
  bit : fsm = .bit → s.bit = 0
  bi : s.bi.toNat = j

theorem ByteQueue.getElem?_toList_ofList {bs : List Byte} {j : Nat} (hj : j < 6) :
    (ByteQueue.ofList bs).toList[j]? = some (bs.getD j 0) := by
  interval_cases j <;> rfl

namespace State.Stands

variable {c : Queue} {s : State} {fsm : FsmState} {j : Nat}

/-- The register of byte `j` (R212). -/
theorem entry (h : s.Stands c fsm j) (hc : c.Fits) {b : Byte} (hb : c.bytes[j]? = some b) :
    s.q.entry s.bi = b := by
  obtain ⟨hj, hget⟩ := List.getElem?_eq_some_iff.1 hb
  have hsix : j < 6 := hj.trans_le hc.le_six
  have hentry := ByteQueue.getElem?_toList s.q (j := s.bi) (by rw [h.bi]; exact hsix)
  rw [h.q, h.bi, ByteQueue.getElem?_toList_ofList hsix, List.getD_eq_getElem _ _ hj, hget] at hentry
  rw [h.q]
  exact (Option.some.inj hentry).symm

theorem one_le_qlen (h : s.Stands c fsm j) (hc : c.Fits) : 1 ≤ s.qlen.toNat := h.qlen ▸ hc.pos

theorem closesFrame_iff (h : s.Stands c fsm j) (hc : c.Fits) : s.closesFrame = true ↔ c.closes j := by
  have hzero : s.bi = 0 ↔ j = 0 := by rw [← BitVec.toNat_inj, h.bi]; rfl
  rw [State.closesFrame, Bool.or_eq_true, Bool.and_eq_true, State.lastByte_iff (h.one_le_qlen hc),
    decide_eq_true_iff, h.bi, h.qlen, h.brk, hzero]
  rfl

theorem moreBytes_iff (h : s.Stands c fsm j) (hc : c.Fits) :
    s.moreBytes = true ↔ j + 1 < c.bytes.length := by
  rw [State.moreBytes_iff (h.one_le_qlen hc), h.bi, h.qlen]

theorem toNat_nextIndex (h : s.Stands c fsm j) (hj : j < 6) : s.nextIndex.toNat = j + 1 := by
  have hbi := h.bi
  rw [State.nextIndex_eq (by omega)]
  bv_omega

end State.Stands

/-! ### Walks to a state with a given property -/

/-- From `s` the FSM performs exactly `ops`, and then stands at a state with `P`. -/
def WalksTo (ops : List PinOp) (P : State → Prop) (s : State) : Prop := ∃ t, Walk ops s t ∧ P t

theorem WalksTo.append {as bs : List PinOp} {P Q : State → Prop} {s : State} (h : WalksTo as P s)
    (h' : ∀ t, P t → WalksTo bs Q t) : WalksTo (as ++ bs) Q s := by
  obtain ⟨t, hwalk, ht⟩ := h
  obtain ⟨u, hwalk', hu⟩ := h' t ht
  exact ⟨u, hwalk.append hwalk', hu⟩

namespace State.Stands

variable {c : Queue} {s : State} {j : Nat}

/-- A start leads to the first bit of its byte. -/
theorem start (h : s.Stands c .start j) : WalksTo traceStart (State.Stands c .bit j) s :=
  ⟨_, walk_start h.st h.sub, h.q, h.qlen, h.brk, rfl, rfl, fun _ => rfl, h.bi⟩

/-- A byte and its acknowledgment skip, up to what follows. -/
theorem walk_byte_ack (h : s.Stands c .bit j) (hc : c.Fits) {b : Byte} (hb : c.bytes[j]? = some b) :
    Walk (traceWriteByte b ++ traceSkipAck) s
      (s.after (traceWriteByte b ++ traceSkipAck)
        (if s.closesFrame then ⟨.stop, 0, 7, s.bi⟩ else ⟨.bit, 0, 0, s.nextIndex⟩)) := by
  have hbyte := walk_byte h.st h.sub (h.bit rfl) (h.entry hc hb)
  have hack := walk_ack (s := s.after (traceWriteByte b) ⟨.ack, 0, 7, s.bi⟩) rfl rfl
  rw [State.after_after] at hack
  exact hbyte.append hack

/-- The last byte of a frame leads to the stop. -/
theorem last_byte (h : s.Stands c .bit j) (hc : c.Fits) {b : Byte} (hb : c.bytes[j]? = some b)
    (hclose : c.closes j) :
    WalksTo (traceWriteByte b ++ traceSkipAck) (State.Stands c .stop j) s := by
  have hwalk := h.walk_byte_ack hc hb
  rw [if_pos ((h.closesFrame_iff hc).2 hclose)] at hwalk
  exact ⟨_, hwalk, h.q, h.qlen, h.brk, rfl, rfl, nofun, h.bi⟩

/-- Any other byte leads to the first bit of the next. -/
theorem inner_byte (h : s.Stands c .bit j) (hc : c.Fits) {b : Byte} (hb : c.bytes[j]? = some b)
    (hopen : ¬c.closes j) :
    WalksTo (traceWriteByte b ++ traceSkipAck) (State.Stands c .bit (j + 1)) s := by
  obtain ⟨hj, -⟩ := List.getElem?_eq_some_iff.1 hb
  have hwalk := h.walk_byte_ack hc hb
  rw [if_neg (mt (h.closesFrame_iff hc).1 hopen)] at hwalk
  exact ⟨_, hwalk, h.q, h.qlen, h.brk, rfl, rfl, fun _ => rfl,
    h.toNat_nextIndex (hj.trans_le hc.le_six)⟩

/-- The bytes from byte `j` to the end of the queue, where no frame break is among them. -/
theorem last_bytes (h : s.Stands c .bit j) (hc : c.Fits) {bs : List Byte} (hbs : bs ≠ [])
    (hdrop : c.bytes.drop j = bs) (hbrk : ¬(c.brk = true ∧ j = 0)) :
    WalksTo (bs.flatMap fun b => traceWriteByte b ++ traceSkipAck)
      (State.Stands c .stop (c.bytes.length - 1)) s := by
  induction bs generalizing s j with
  | nil => exact absurd rfl hbs
  | cons b bs ih =>
    have hb : c.bytes[j]? = some b := by rw [← List.head?_drop, hdrop, List.head?_cons]
    have hlen : c.bytes.length - j = bs.length + 1 := by
      rw [← List.length_drop, hdrop, List.length_cons]
    have hrest : c.bytes.drop (j + 1) = bs := by rw [← List.tail_drop, hdrop, List.tail_cons]
    rw [List.flatMap_cons]
    cases bs with
    | nil =>
      have hj : j + 1 = c.bytes.length := by simp at hlen; omega
      rw [List.flatMap_nil, List.append_nil, ← hj, Nat.add_sub_cancel]
      exact h.last_byte hc hb (.inl hj)
    | cons b' bs =>
      have hj : j + 1 ≠ c.bytes.length := by simp at hlen; omega
      refine (h.inner_byte hc hb (not_or.2 ⟨hj, hbrk⟩)).append fun t ht => ?_
      exact ih ht (List.cons_ne_nil _ _) hrest (fun hb0 => Nat.succ_ne_zero j hb0.2)

/-- A stop that more bytes follow leads to the next start. -/
theorem stop_more (h : s.Stands c .stop j) (hc : c.Fits) (hmore : j + 1 < c.bytes.length) :
    WalksTo traceStop (State.Stands c .start (j + 1)) s := by
  have hwalk := walk_stop h.st h.sub
  rw [if_pos ((h.moreBytes_iff hc).2 hmore)] at hwalk
  exact ⟨_, hwalk, h.q, h.qlen, h.brk, rfl, rfl, nofun,
    h.toNat_nextIndex (by have := hc.le_six; omega)⟩

/-- The stop after the last byte ends the command. -/
theorem stop_last (h : s.Stands c .stop (c.bytes.length - 1)) (hc : c.Fits) :
    WalksTo traceStop (fun t => t.st = .done) s := by
  have hwalk := walk_stop h.st h.sub
  have hpos := hc.pos
  rw [if_neg (mt (h.moreBytes_iff hc).1 (by omega))] at hwalk
  exact ⟨_, hwalk, rfl⟩

/-- The frame of the byte before a frame break. -/
theorem frame_before_break (h : s.Stands c .start 0) (hc : c.Fits) (hbrk : c.brk = true) {b : Byte}
    (hb : c.bytes[0]? = some b) : WalksTo (frame [b]) (State.Stands c .start 1) s := by
  have hbyte (t : State) (ht : t.Stands c .bit 0) := ht.last_byte hc hb (.inr ⟨hbrk, rfl⟩)
  rw [frame, List.flatMap_singleton]
  exact (h.start.append hbyte).append fun t ht => ht.stop_more hc (hc.brk hbrk)

/-- The last frame of a command. -/
theorem last_frame (h : s.Stands c .start j) (hc : c.Fits) (hj : j < c.bytes.length)
    (hbrk : ¬(c.brk = true ∧ j = 0)) :
    WalksTo (frame (c.bytes.drop j)) (fun t => t.st = .done) s := by
  have hbytes (t : State) (ht : t.Stands c .bit j) :=
    ht.last_bytes hc (by simpa using hj) rfl hbrk
  exact (h.start.append hbytes).append fun t ht => ht.stop_last hc

/-- The FSM performs exactly the expansion of its queue (R181, R221). -/
theorem expand (h : s.Stands c .start 0) (hc : c.Fits) :
    WalksTo c.expand (fun t => t.st = .done) s := by
  rw [Queue.expand, Queue.frames]
  split
  case isFalse hbrk =>
    rw [List.flatMap_singleton]
    exact h.last_frame hc hc.pos (fun hb => hbrk hb.1)
  case isTrue hbrk =>
    have hlen := hc.brk hbrk
    have hb : c.bytes[0]? = some (c.bytes[0]'(by omega)) := List.getElem?_eq_getElem _
    have htake : c.bytes.take 1 = [c.bytes[0]'(by omega)] := by
      rw [List.take_one, List.head?_eq_getElem?, hb]
      rfl
    rw [List.flatMap_cons, List.flatMap_singleton, htake]
    exact (h.frame_before_break hc hbrk hb).append fun t ht =>
      ht.last_frame hc (by omega) (by simp)

end State.Stands

/-- An accepted queue stands at the start of its byte 0 (R212). -/
theorem State.stands_loadQueue {c : Queue} (hc : c.Fits) (s : State) :
    (s.loadQueue c).Stands c .start 0 where
  q := rfl
  qlen := by
    have := hc.le_six
    rw [State.loadQueue_qlen, BitVec.toNat_ofNat]
    omega
  brk := rfl
  st := rfl
  sub := rfl
  bit := nofun
  bi := rfl

end Sys2Proof.Machine

/-! ## The runs of a command (45_dispatch_fsm.md section 3) -/

namespace Sys2Proof.Machine

open Config (settleCycles)

/-! ### One primitive (R215, R216) -/

/-- A primitive that the FSM walks through is performed in time as `exec` performs it, up to the edge of
its last pin op. -/
theorem primitive_runs {s : State} {i : Instr} {ops : List PinOp} {p : FsmPos}
    (hwalk : Walk ops s (s.after ops p)) (hne : ops ≠ []) (hd : s.dly = 0)
    (hexec : exec i s = .next (s.performOps ops))
    (hn : noReset ((ops.length - 1) * settleCycles + 1) s) :
    ∃ t u, exec i s = .next u ∧ runsTo ((ops.length - 1) * settleCycles + 1) s t ∧
      t = { u with
        st := t.st, sub := t.sub, bit := t.bit, bi := t.bi
        inputs := s.inputs.drop ((ops.length - 1) * settleCycles + 1) } ∧
      t.pos = p := by
  refine ⟨_, _, hexec, walk_runs hwalk hne hd le_rfl Config.settleCycles_pos hn, ?_, rfl⟩
  rw [State.performOps_eq hne]
  rfl

/-- Settles O54: the walk of each primitive ends at the successor of its last step. -/
theorem fsmRunsThePrimitives : Obligations.FsmRunsThePrimitives := by
  intro s i k hcase hsub hd hn
  obtain ⟨hst, rfl, rfl⟩ | ⟨hst, rfl, rfl⟩ | ⟨hst, rfl, rfl⟩ | ⟨hst, rfl, rfl⟩ := hcase
  · rw [State.nextPos_start (s := { s with sub := 2#2 }) hst]
    exact primitive_runs (walk_start hst hsub) (List.cons_ne_nil _ _) hd rfl hn
  · rw [State.nextPos_bit (s := { s with sub := 2#2 }) hst]
    exact primitive_runs (walk_bit hst hsub rfl) (List.cons_ne_nil _ _) hd rfl hn
  · rw [State.nextPos_ack (s := { s with sub := 2#2 }) hst]
    exact primitive_runs (walk_ack hst hsub) (List.cons_ne_nil _ _) hd rfl hn
  · rw [State.nextPos_stop (s := { s with sub := 3#2 }) hst]
    exact primitive_runs (walk_stop hst hsub) (List.cons_ne_nil _ _) hd rfl hn

/-! ### Expansions -/

theorem Queue.frames_ne_nil (c : Queue) : c.frames ≠ [] := by
  unfold Queue.frames
  split <;> exact List.cons_ne_nil _ _

theorem Queue.expand_ne_nil (c : Queue) : c.expand ≠ [] := by
  obtain ⟨bs, frs, hfrs⟩ := List.exists_cons_of_ne_nil c.frames_ne_nil
  rw [Queue.expand, hfrs, List.flatMap_cons]
  exact List.append_ne_nil_of_left_ne_nil (frame_ne_nil bs) _

/-- A command leaves both lines released, as its last frame does (R121, R221). -/
theorem Queue.levelsAfter_expand (c : Queue) (l : Bool × Bool) :
    levelsAfter c.expand l = (true, true) := by
  obtain ⟨init, last, hfrs⟩ := (List.eq_nil_or_concat c.frames).resolve_left c.frames_ne_nil
  rw [Queue.expand, hfrs]
  simp [levelsAfter_append]

/-! ### From the offer to the edge `j` after the accepting one -/

/-- In `j` edges `j ⌈/⌉ S` pin ops are performed, the last of them at the first of `r` edges (R222). -/
theorem exists_settle_rest {j : Nat} (hj : 0 < j) :
    ∃ k r, j ⌈/⌉ settleCycles = k + 1 ∧ 1 ≤ r ∧ r ≤ settleCycles ∧ k * settleCycles + r = j := by
  have hle (m : Nat) : j ⌈/⌉ settleCycles ≤ m ↔ j ≤ settleCycles * m :=
    ceilDiv_le_iff_le_mul Config.settleCycles_pos
  have hne : j ⌈/⌉ settleCycles ≠ 0 := fun h0 => by
    have := (hle 0).1 h0.le
    omega
  obtain ⟨k, hk⟩ := Nat.exists_eq_succ_of_ne_zero hne
  have hlt := (hle k).not.1 (by omega)
  have hge := (hle (k + 1)).1 hk.le
  rw [Nat.mul_add_one] at hge
  rw [Nat.mul_comm] at hlt hge
  exact ⟨k, j - k * settleCycles, hk, by omega, by omega, by omega⟩

/-- `t` is the state `j` edges after the edge at which `s` accepted the command with queue `c`: the first
`j ⌈/⌉ S` pin ops are performed, and the FSM is in `DONE` when these are all (R221, R222). -/
structure State.CommandAt (c : Queue) (j : Nat) (s t : State) : Prop where
  inputs : t.inputs = s.inputs.drop (1 + j)
  lutData : t.lutData = s.lutData
  w : t.w = s.w ++ (c.expand.take (j ⌈/⌉ settleCycles)).map .pin
  lines : (t.clkO, t.datO) = levelsAfter (c.expand.take (j ⌈/⌉ settleCycles)) (s.clkO, s.datO)
  dly : t.dly = BitVec.ofNat Config.dlyW (j ⌈/⌉ settleCycles * settleCycles - j)
  pending : j ⌈/⌉ settleCycles < c.expand.length → t.st.running = true
  finished : c.expand.length ≤ j ⌈/⌉ settleCycles → t.st = .done

/-- The FSM performs the expansion of the word's queue from its load on, to `DONE`. -/
theorem walk_expand {word : Word} {c : Queue} (henc : encodeQueue word = some c) (s : State) :
    ∃ t, Walk c.expand (s.loadQueue c) t ∧ t.st = .done := by
  have hfits := Queue.fits_of_encodeQueue henc
  exact (State.stands_loadQueue hfits s).expand hfits

section Accepted

variable {s : State} {word : Word} {c : Queue} (hi : s.st = .idle) (hoff : s.offers word)
  (henc : encodeQueue word = some c)
include hi hoff henc

/-- The accepting edge loads the queue of the word (R212). -/
theorem step_offer : step s = .next (s.takeInput.loadQueue c) := by
  obtain ⟨hrst, hvalid, rfl⟩ := hoff
  rw [step_accept hrst hi hvalid, exec_decodeCommand_eq_load (s := s.takeInput) _ hi, henc]
  rfl

/-- The walk of the expansion, cut after `j` edges. -/
theorem offer_runs {j : Nat} (hj : 0 < j) (hle : j ≤ c.expand.length * settleCycles)
    (hn : noReset (1 + j) s) : ∃ t, runsTo (1 + j) s t ∧ s.CommandAt c j t := by
  obtain ⟨k, r, hk, hr1, hr, rfl⟩ := exists_settle_rest hj
  have hkN : k + 1 ≤ c.expand.length := by
    rw [← hk, ceilDiv_le_iff_le_mul Config.settleCycles_pos, Nat.mul_comm _ c.expand.length]
    exact hle
  have hlen : (c.expand.take (k + 1)).length = k + 1 := List.length_take_of_le hkN
  have hne : c.expand.take (k + 1) ≠ [] := List.ne_nil_of_length_eq_add_one hlen
  obtain ⟨t, hwalk, hdone⟩ := walk_expand henc s.takeInput
  obtain ⟨u, hu, hlt, hge⟩ := hwalk.take (k + 1)
  have hueq := hu.eq rfl
  have hrun := walk_runs hu hne rfl hr1 hr
    (by rw [hlen]; exact (noReset_add hn).2 _ (List.drop_one ▸ rfl))
  rw [hlen, Nat.add_sub_cancel] at hrun
  refine ⟨_, Nat.add_comm .. ▸ runsTo_succ (step_offer hi hoff henc) hrun, ?_⟩
  have hw : u.w = s.w ++ (c.expand.take (k + 1)).map .pin := congrArg State.w hueq
  have hlut : u.lutData = s.lutData := by rw [hueq]; rfl
  have hlines : (u.clkO, u.datO) = levelsAfter (c.expand.take (k + 1)) (s.clkO, s.datO) :=
    congrArg (fun v : State => (v.clkO, v.datO)) hueq
  have hrest : (k + 1) * settleCycles - (k * settleCycles + r) = settleCycles - r := by
    rw [Nat.add_one_mul]
    omega
  rw [← hk] at hw hlines
  refine ⟨by simp [Nat.add_comm 1], hlut, hw, hlines, by rw [hk, hrest], fun h => ?_, fun h => ?_⟩
  · obtain ⟨op, ho⟩ := hlt (hk ▸ h)
    exact (State.running_of_opAt ho).1
  · rw [← hdone, ← hge (hk ▸ h)]

/-- The edge after the last settle interval ends the command (R217, R221). -/
theorem offer_runs_to_idle (hn : noReset (c.expand.length * settleCycles + 2) s) :
    ∃ t, runsTo (c.expand.length * settleCycles + 2) s t ∧ t.st = .idle ∧ t.clkO = true ∧
      t.datO = true ∧ t.dly = 0 ∧ t.w = s.w ++ c.expand.map .pin ∧ t.lutData = s.lutData ∧
      t.inputs = s.inputs.drop (c.expand.length * settleCycles + 2) := by
  have hsum : c.expand.length * settleCycles + 2 = 1 + c.expand.length * settleCycles + 1 := by omega
  have hceil : (c.expand.length * settleCycles) ⌈/⌉ settleCycles = c.expand.length := by
    rw [Nat.mul_comm, ← smul_eq_mul, smul_ceilDiv Config.settleCycles_pos]
  have hpos : 0 < c.expand.length * settleCycles :=
    Nat.mul_pos (List.length_pos_of_ne_nil c.expand_ne_nil) Config.settleCycles_pos
  rw [hsum] at hn ⊢
  obtain ⟨hn, hlast⟩ := noReset_add hn
  obtain ⟨t, hrun, ht⟩ := offer_runs hi hoff henc hpos le_rfl hn
  obtain ⟨hrst, -⟩ := noReset_succ.1 (hlast t ht.inputs)
  have hdly : t.dly = 0 := by rw [ht.dly, hceil, Nat.sub_self]; rfl
  have hlines := ht.lines
  have hw := ht.w
  rw [hceil, List.take_length] at hw hlines
  rw [c.levelsAfter_expand, Prod.mk.injEq] at hlines
  have hstep := step_finish hrst (ht.finished hceil.ge) hdly
  exact ⟨_, runsTo_add hrun (runsTo_succ hstep (runsTo_zero.2 rfl)), rfl, hlines.1, hlines.2, hdly, hw,
    ht.lutData, by simp [ht.inputs]⟩

end Accepted

/-! ### Settled (R221, R222, R224, R261) -/

/-- Settles O55: the offer's run to the end of the command. -/
theorem acceptedCommandTransmitsItsExpansion : Obligations.AcceptedCommandTransmitsItsExpansion :=
  fun _ _ _ hi hoff henc hn => offer_runs_to_idle hi hoff henc hn

/-- The last pin op is begun exactly when its edge has come (R222). -/
theorem le_ceilDiv_iff {n j : Nat} (hn : 0 < n) :
    n ≤ j ⌈/⌉ settleCycles ↔ 1 + (n - 1) * settleCycles ≤ j := by
  have hle : j ⌈/⌉ settleCycles ≤ n - 1 ↔ j ≤ (n - 1) * settleCycles := by
    rw [ceilDiv_le_iff_le_mul Config.settleCycles_pos, Nat.mul_comm]
  omega

/-- Settles O56: at the accepting edge itself no pin op is performed; after it, the cut run. -/
theorem cycleTimingOfACommand : Obligations.CycleTimingOfACommand := by
  intro s word c j hi hoff henc hle hn
  have hN : 0 < c.expand.length := List.length_pos_of_ne_nil c.expand_ne_nil
  rw [← Nat.ceilDiv_eq_add_pred_div, ← le_ceilDiv_iff hN]
  obtain rfl | hj := Nat.eq_zero_or_pos j
  · refine ⟨_, runsTo_succ (step_offer hi hoff henc) (runsTo_zero.2 rfl), rfl, ?_, ?_⟩
    · simp
    · simp [c.expand_ne_nil]
  · obtain ⟨t, hrun, ht⟩ := offer_runs hi hoff henc hj hle hn
    obtain hlt | hge := Nat.lt_or_ge (j ⌈/⌉ settleCycles) c.expand.length
    · have hst := ht.pending hlt
      refine ⟨t, hrun, decide_eq_false fun h => ?_, ht.w, fun h => ?_, fun h => absurd h hlt.not_ge⟩
      · simp [h, FsmState.running] at hst
      · simp [h, FsmState.running] at hst
    · have hst := ht.finished hge
      exact ⟨t, hrun, decide_eq_false (by simp [hst]), ht.w, fun _ => hge, fun _ => hst⟩

/-- A trace that ends in a pin op is marked at a reset (R44). -/
theorem markReset_append_pins (w : List Obs) {ops : List PinOp} (hne : ops ≠ []) :
    markReset (w ++ ops.map .pin) = w ++ ops.map .pin ++ [.rst] := by
  obtain ⟨init, last, rfl⟩ := (List.eq_nil_or_concat ops).resolve_left hne
  simp [markReset]

/-- Settles O57: the edge after the cut run is a reset edge, and the trace it marks ends in a pin op. -/
theorem resetCutsARunningCommand : Obligations.ResetCutsARunningCommand := by
  intro s word c j hi hoff henc hj hle hn ⟨p, hp, hrst⟩
  obtain ⟨t, hrun, ht⟩ := offer_runs hi hoff henc hj hle hn
  have hport : t.portIn = p := by
    rw [State.portIn, ht.inputs, List.headD_eq_head?_getD, List.head?_drop, hp, Option.getD_some]
  have hstep := step_reset (hport ▸ hrst)
  have hsum : 2 + j = 1 + j + 1 := by omega
  have hops : c.expand.take (j ⌈/⌉ settleCycles) ≠ [] := by
    obtain ⟨k, r, hk, -⟩ := exists_settle_rest hj
    simp [hk, c.expand_ne_nil]
  refine ⟨_, hsum ▸ runsTo_add hrun (runsTo_succ hstep (runsTo_zero.2 rfl)), rfl, rfl, rfl, rfl, ?_⟩
  rw [← Nat.ceilDiv_eq_add_pred_div, ← markReset_append_pins s.w hops, ← ht.w]
  rfl

/-- The edge that accepts a reserved word only uses up its input (R213). -/
theorem step_offer_reserved {s : State} {word : Word} (hi : s.st = .idle) (hoff : s.offers word)
    (henc : encodeQueue word = none) : step s = .next s.takeInput := by
  obtain ⟨hrst, hvalid, rfl⟩ := hoff
  rw [step_accept hrst hi hvalid, exec_decodeCommand_eq_load (s := s.takeInput) _ hi, henc]
  rfl

theorem acceptTx_of_queue {word : Word} {c : Queue} (henc : encodeQueue word = some c) (tx : TxState) :
    acceptTx word tx = ⟨true, true, tx.w ++ c.expand.map .pin⟩ := by
  rw [acceptTx, henc]

theorem acceptTx_of_reserved {word : Word} (henc : encodeQueue word = none) (tx : TxState) :
    acceptTx word tx = tx := by
  rw [acceptTx, henc]

/-- Settles O58: a word with a queue runs as its command, a reserved word leaves the block in `IDLE`. -/
theorem transactionLevelAgrees : Obligations.TransactionLevelAgrees := by
  intro s word hi hoff
  cases henc : encodeQueue word with
  | none =>
    intro _ _
    rw [acceptTx_of_reserved henc]
    exact ⟨_, runsTo_succ (step_offer_reserved hi hoff henc) (runsTo_zero.2 rfl), hi, rfl⟩
  | some c =>
    intro _ hn
    obtain ⟨t, hrun, hst, hclk, hdat, -, hw, -, -⟩ := offer_runs_to_idle hi hoff henc hn
    refine ⟨t, hrun, hst, ?_⟩
    rw [acceptTx_of_queue henc, State.tx, hclk, hdat, hw]
    rfl

end Sys2Proof.Machine

/-! ## Configurations (00_scope.md section 3, 10_state.md section 3) -/

namespace Sys2Proof.Config

/-- A clock that a settle length allows is the fastest one slowed down by some factor of at least 1
(R14). -/
theorem exists_clock_eq {f : ℝ} {cycles : Nat} (hf : 0 < f)
    (hle : ⌈(2 / 1000000 : ℝ) * f⌉₊ ≤ cycles) : ∃ slack, f = clock cycles slack := by
  have hslow : (2 / 1000000 : ℝ) * f ≤ cycles := Nat.ceil_le.1 hle
  have hfactor : 1 ≤ (cycles : ℝ) * 1000000 / (2 * f) := by
    rw [le_div_iff₀ (by positivity)]
    linarith
  have hcycles : (cycles : ℝ) ≠ 0 := fun h0 => by
    rw [h0] at hslow
    linarith
  refine ⟨cycles * 1000000 / (2 * f) - 1, ?_⟩
  rw [clock, tSettleMicros, abs_of_nonneg (sub_nonneg.2 hfactor)]
  push_cast
  field_simp
  ring

/-- Settles O2: an allowed clock is a slowed one, and no slowed clock outruns its settle length. -/
theorem legalConfigurationsAreTheRepresentedOnes :
    Obligations.LegalConfigurationsAreTheRepresentedOnes := by
  intro f cycles hf
  constructor
  · rintro ⟨hone, hle⟩
    obtain ⟨pred, rfl⟩ := Nat.exists_eq_add_of_le' hone
    obtain ⟨slack, hslack⟩ := exists_clock_eq hf hle
    exact ⟨pred, slack, rfl, hslack⟩
  · rintro ⟨pred, slack, rfl, rfl⟩
    exact ⟨Nat.le_add_left 1 pred, ceil_settleTime_mul_clock_le _ slack⟩

theorem minSettle_eq_ceilDiv {num den : Nat} (hden : 0 < den) :
    minSettle num den = (2 * num) ⌈/⌉ (1000000 * den) := by
  rw [minSettle, tSettleMicros, Nat.ceilDiv_eq_add_pred_div, Nat.add_sub_assoc (by omega)]

/-- Settles O3: both are the least number of cycles not below `T_SETTLE` times the clock. -/
theorem leastSettleLength : Obligations.LeastSettleLength := by
  intro num den hden
  refine eq_of_forall_ge_iff fun n => ?_
  have hquot : (2 / 1000000 : ℝ) * (num / den) = (2 * num : Nat) / (1000000 * den : Nat) := by
    push_cast
    field_simp
  have hpos : (0 : ℝ) < (1000000 * den : Nat) := Nat.cast_pos.2 (by omega)
  rw [minSettle_eq_ceilDiv hden, ceilDiv_le_iff_le_mul (by omega), Nat.ceil_le, hquot,
    div_le_iff₀ hpos, mul_comm (n : ℝ), ← Nat.cast_mul, Nat.cast_le]

theorem dlyWidth_eq {cycles : Nat} : dlyWidth cycles = max 1 (Nat.clog 2 cycles) := by
  unfold dlyWidth
  split
  case isTrue hle =>
    exact (max_eq_left (Nat.clog_le_of_le_pow hle)).symm
  case isFalse hgt =>
    have hlog : Nat.log2 (cycles - 1) + 1 = Nat.clog 2 cycles := by
      refine eq_of_forall_ge_iff fun n => ?_
      rw [Nat.succ_le_iff, Nat.log2_lt (by omega), Nat.clog_le_iff_le_pow Nat.one_lt_two]
      omega
    rw [← hlog, max_eq_right (Nat.le_add_left 1 _)]

/-- A settle length less 1 fits in the counter of that length (R39). -/
theorem sub_one_lt_two_pow_dlyWidth {cycles : Nat} (h : 1 ≤ cycles) :
    cycles - 1 < 2 ^ dlyWidth cycles := by
  have hpow : cycles ≤ 2 ^ dlyWidth cycles := by
    rw [← Nat.clog_le_iff_le_pow Nat.one_lt_two, dlyWidth_eq]
    exact le_max_right _ _
  omega

end Sys2Proof.Config

namespace Sys2Proof.Machine

/-- Settles O4: the width in closed form, and the load that it holds. -/
theorem delayCounterWidthHoldsItsLoad : Obligations.DelayCounterWidthHoldsItsLoad := by
  refine ⟨fun cycles h => ⟨Config.dlyWidth_eq, Config.sub_one_lt_two_pow_dlyWidth h⟩,
    Config.dlyWidth_eq, fun line v s => ⟨_, exec_setLine line v s, ?_⟩⟩
  rw [State.setLine_dly, Config.toNat_load]

end Sys2Proof.Machine

/-! ## Pinned entries and LUT_READ (43_char_lut.md) -/

namespace Sys2Proof.Config

/-- Settles O6: the entries are pinned by definition. -/
theorem pinnedTableEntries : Obligations.PinnedTableEntries := ⟨rfl, rfl, rfl, rfl⟩

/-- Settles O7: the entry is pinned by definition, and the overlay sets its bit 7. -/
theorem tableEntryOfB : Obligations.TableEntryOfB := ⟨rfl, rfl⟩

end Sys2Proof.Config

namespace Sys2Proof.Machine

/-- LUT_READ writes the looked-up entry to `lutData` (R160). -/
theorem exec_lutRead (c : Byte) (s : State) : exec (.lutRead c) s = .next { s with lutData := seg c } := rfl

/-- Settles O9: the 7-bit index is the code modulo 128. -/
theorem lutReadAnswersTheEntry : Obligations.LutReadAnswersTheEntry := by
  intro c s
  have hindex : BitVec.ofNat 7 (c.toNat % 128) = BitVec.ofNat 7 c.toNat :=
    BitVec.eq_of_toNat_eq (by simp)
  rw [exec_lutRead, seg_eq_charLut_ofNat, hindex]

end Sys2Proof.Machine

/-! ## Words and wire bytes (30_encoding.md) -/

namespace Sys2Proof

/-- The bits of a word that a field of `len` bits from bit `start` on occupies (R80). -/
def fieldMask (start len : Nat) : Word := (BitVec.allOnes len).setWidth 64 <<< start

/-- A field put back in its lane is the word masked to that lane. -/
theorem extract_shiftLeft_eq_and_fieldMask (w : Word) (start len : Nat) :
    (w.extractLsb' start len).setWidth 64 <<< start = w &&& fieldMask start len := by
  refine BitVec.eq_of_getLsbD_eq fun i hi => ?_
  by_cases hlt : i < start
  · simp [fieldMask, hlt]
  · have hsub : start + (i - start) = i := by omega
    simp [fieldMask, hlt, hi, hsub, Bool.and_comm]

/-- OP is the word masked to its two lowest bits (R81). -/
theorem setWidth_fieldOp (w : Word) : (fieldOp w).setWidth 64 = w &&& fieldMask 0 2 := by
  rw [← extract_shiftLeft_eq_and_fieldMask, BitVec.shiftLeft_zero]
  rfl

theorem ofBool_fieldSep (w : Word) : BitVec.ofBool (fieldSep w) = w.extractLsb' 2 1 := by
  refine BitVec.eq_of_getLsbD_eq fun i hi => ?_
  obtain rfl : i = 0 := by omega
  simp [fieldSep]

theorem encBright_fieldLevel {w : Word} (h : fieldOp w = 0#2) :
    encBright (fieldLevel w) = w &&& 0xF03#64 := by
  have hop := setWidth_fieldOp w
  rw [h] at hop
  have hmask : 0xF03#64 = fieldMask 8 4 ||| fieldMask 0 2 := by decide
  rw [hmask, BitVec.and_or_distrib_left, ← hop, ← extract_shiftLeft_eq_and_fieldMask]
  rfl

theorem encText_fields {w : Word} (h : fieldOp w = 1#2) :
    encText (fieldSep w) (fieldLen w) (fieldChar w 0) (fieldChar w 1) (fieldChar w 2) (fieldChar w 3) =
      w &&& 0xFFFFFFFF00FF0007#64 := by
  have hop := setWidth_fieldOp w
  rw [h] at hop
  have hmask : 0xFFFFFFFF00FF0007#64 = fieldMask 56 8 ||| fieldMask 48 8 ||| fieldMask 40 8
      ||| fieldMask 32 8 ||| fieldMask 16 8 ||| fieldMask 2 1 ||| fieldMask 0 2 := by decide
  rw [hmask]
  simp only [BitVec.and_or_distrib_left]
  rw [← hop]
  simp only [← extract_shiftLeft_eq_and_fieldMask]
  rw [← ofBool_fieldSep]
  rfl

theorem encNum_fields {w : Word} (h : fieldOp w = 2#2) :
    encNum (fieldSep w) (fieldValue w) = w &&& 0xFFFF00000007#64 := by
  have hop := setWidth_fieldOp w
  rw [h] at hop
  have hmask : 0xFFFF00000007#64 = fieldMask 32 16 ||| fieldMask 2 1 ||| fieldMask 0 2 := by decide
  rw [hmask]
  simp only [BitVec.and_or_distrib_left]
  rw [← hop]
  simp only [← extract_shiftLeft_eq_and_fieldMask]
  rw [← ofBool_fieldSep]
  rfl

theorem encRsvd_eq {w : Word} (h : fieldOp w = 3#2) : encRsvd = w &&& 0x3#64 := by
  have hop := setWidth_fieldOp w
  rw [h] at hop
  exact hop

/-- Settles O20: each command's word is put together of the masked lanes of its fields. -/
theorem encodeOfDecodeKeepsTheFields : Obligations.EncodeOfDecodeKeepsTheFields := by
  intro w
  obtain h | h | h | h := fieldOp_cases w
  · rw [decodeCommand_of_op_zero h, h]
    exact congrArg (some ∘ Code.command) (encBright_fieldLevel h)
  · rw [decodeCommand_of_op_one h, h]
    exact congrArg (some ∘ Code.command) (encText_fields h)
  · rw [decodeCommand_of_op_two h, h]
    exact congrArg (some ∘ Code.command) (encNum_fields h)
  · rw [decodeCommand_of_op_three h, h]
    exact congrArg (some ∘ Code.command) (encRsvd_eq h)

/-- Settles O21: each word and byte is decoded by evaluation. -/
theorem wordsOfTheSpecDecode : Obligations.WordsOfTheSpecDecode := by
  refine ⟨?_, ?_, ?_, ?_, ?_, ?_, ?_, ?_, ?_⟩ <;> decide

/-- The five high bits of a byte `0x88..0x8F` (R91). -/
theorem extract_high_bits_eq_iff (b : Byte) :
    b.extractLsb' 3 5 = 0b10001#5 ↔ 0x88#8 ≤ b ∧ b ≤ 0x8F#8 := by
  revert b
  decide

/-- The first bytes of frames, one for each row of R91 to R94. -/
def IsFirstByte (b : Byte) : Prop := (0x87#8 ≤ b ∧ b ≤ 0x8F#8) ∨ b = 0x40#8 ∨ b = 0xC0#8

/-- A byte in a frame's first position is decoded exactly when it is one of the block's first bytes, and
is rejected by name otherwise (R91 to R96, log 16). -/
theorem decodeWire_first (b : Byte) :
    (IsFirstByte b ∧ ∃ i, decodeWire .first b = .ok i) ∨
      (¬IsFirstByte b ∧ decodeWire .first b = .error (.notAFirstByte b)) := by
  unfold decodeWire
  simp only [extract_high_bits_eq_iff]
  split_ifs with hdisabled hlevel hmode haddr
  · exact .inl ⟨.inl (by simp [hdisabled]), _, rfl⟩
  · exact .inl ⟨.inl ⟨by bv_omega, hlevel.2⟩, _, rfl⟩
  · exact .inl ⟨.inr (.inl hmode), _, rfl⟩
  · exact .inl ⟨.inr (.inr haddr), _, rfl⟩
  · refine .inr ⟨fun h => ?_, rfl⟩
    obtain ⟨hge, hle⟩ | h | h := h
    · exact hlevel ⟨by bv_omega, hle⟩
    · exact hmode h
    · exact haddr h

/-- Settles O22: by the two outcomes in the first position; a data position takes every byte. -/
theorem firstBytesOfFrames : Obligations.FirstBytesOfFrames := by
  intro b
  obtain ⟨hfirst, hok⟩ | ⟨hnot, herr⟩ := decodeWire_first b
  · exact ⟨iff_of_true hok hfirst, fun hno => absurd hok hno, rfl⟩
  · exact ⟨iff_of_false (by simp [herr]) hnot, fun _ => herr, rfl⟩

end Sys2Proof

/-! ## DISPLAY_NUMBER (44_command_encoder.md section 4) -/

namespace Sys2Proof.Machine

/-- The code of the decimal digit of weight `10 ^ k` (R192). -/
def digitCode (v k : Nat) : Byte := BitVec.ofNat 8 (0x30 + v / 10 ^ k % 10)

theorem digitChar_eq {d : Half} {n : Nat} (h : d.toNat = n) : digitChar d = BitVec.ofNat 8 (0x30 + n) := by
  rw [digitChar, BitVec.ofNat_add, ← h, BitVec.ofNat_toNat]

/-- Repeated division by 10 gives the digits (R192). -/
theorem digitChars_eq (v : Half) :
    digitChars v = [digitCode v.toNat 3, digitCode v.toNat 2, digitCode v.toNat 1, digitCode v.toNat 0] := by
  have hdigit {k : Nat} {x : Half} (hx : x.toNat = v.toNat / 10 ^ k) :
      digitChar (x.umod 10#16) = digitCode v.toNat k := by
    have hmod : (x.umod 10#16).toNat = x.toNat % 10 := BitVec.toNat_umod
    exact digitChar_eq (hx ▸ hmod)
  have hnext {k : Nat} {x : Half} (hx : x.toNat = v.toNat / 10 ^ k) :
      (x.udiv 10#16).toNat = v.toNat / 10 ^ (k + 1) := by
    have hdiv : (x.udiv 10#16).toNat = x.toNat / 10 := BitVec.toNat_udiv
    rw [hdiv, hx, Nat.pow_succ, Nat.div_div_eq_div_mul]
  have hzero : v.toNat = v.toNat / 10 ^ 0 := (Nat.div_one _).symm
  have hone := hnext hzero
  have htwo := hnext hone
  have hthree := hnext htwo
  rw [digitChars, hdigit hzero, hdigit hone, hdigit htwo, hdigit hthree]

/-- Settles O31: the digits of weights 1000 to 1. -/
theorem digitCharactersSpellTheValue : Obligations.DigitCharactersSpellTheValue := by
  intro v
  have hdigit (k : Nat) : v.toNat / 10 ^ k % 10 ≤ 9 := Nat.le_of_lt_succ (Nat.mod_lt _ (by decide))
  refine ⟨_, _, _, _, hdigit 3, hdigit 2, hdigit 1, hdigit 0, digitChars_eq v, ?_⟩
  omega

/-- The digits below the ten-thousands do not see the digits above (R193). -/
theorem digitCode_mod (v : Nat) {k : Nat} (hk : k < 4) : digitCode (v % 10000) k = digitCode v k := by
  have hdigit : v % 10000 / 10 ^ k % 10 = v / 10 ^ k % 10 := by
    interval_cases k <;> omega
  rw [digitCode, hdigit, digitCode]

theorem digitChars_mod (v : Half) : digitChars (BitVec.ofNat 16 (v.toNat % 10000)) = digitChars v := by
  have hfit : (BitVec.ofNat 16 (v.toNat % 10000)).toNat = v.toNat % 10000 := by
    rw [BitVec.toNat_ofNat]
    omega
  rw [digitChars_eq, digitChars_eq, hfit, digitCode_mod _ (by decide), digitCode_mod _ (by decide),
    digitCode_mod _ (by decide), digitCode_mod _ (by decide)]

/-- Settles O32: the queue of a number is a function of its digit characters. -/
theorem highDigitsAreLost : Obligations.HighDigitsAreLost := by
  intro sep v s
  have hchars := digitChars_mod v
  refine ⟨hchars.symm, ?_⟩
  rw [exec_displayNumber, exec_displayNumber, displayNumberQueue, displayNumberQueue, hchars]

/-- The registers that DISPLAY_NUMBER loads (R191, R212). -/
theorem ofList_displayNumberQueue (sep : Bool) (v : Half) :
    ByteQueue.ofList (displayNumberQueue sep v).bytes =
      ⟨0x40, 0xC0, seg (digitCode v.toNat 3),
        if sep then seg (digitCode v.toNat 2) ||| 0x80#8 else seg (digitCode v.toNat 2),
        seg (digitCode v.toNat 1), seg (digitCode v.toNat 0)⟩ := by
  rw [displayNumberQueue, ofList_textQueue, digitChars_eq]
  rfl

/-- Settles O26: the load of the text queue of the four digits. -/
theorem displayNumberIsAccepted : Obligations.DisplayNumberIsAccepted := by
  intro sep v s hi digit
  rw [exec_displayNumber, State.acceptQueue_of_idle _ hi, State.loadQueue, ofList_displayNumberQueue]
  rfl

end Sys2Proof.Machine

/-! ## Primitives and wire bytes executed whole (41_framer.md, 42_serializer.md) -/

namespace Sys2Proof.Machine

/-- An instruction that performs pin ops moves the lines, extends `W` and leaves the settle interval of
the last pin op running; nothing else changes (log 8). -/
theorem exec_eq_of_performOps {i : Instr} {ops : List PinOp} {s : State}
    (h : exec i s = .next (s.performOps ops)) (hne : ops ≠ []) :
    exec i s = .next { s with
      clkO := (levelsAfter ops (s.clkO, s.datO)).1
      datO := (levelsAfter ops (s.clkO, s.datO)).2
      w := s.w ++ ops.map .pin
      dly := BitVec.ofNat Config.dlyW (Config.settleCycles - 1) } := by
  rw [h, State.performOps_eq hne]

theorem exec_start (s : State) : exec .start s = .next (s.performOps traceStart) :=
  congrArg Host.Outcome.next s.startSeq_eq

theorem exec_stop (s : State) : exec .stop s = .next (s.performOps traceStop) :=
  congrArg Host.Outcome.next s.stopSeq_eq

theorem exec_skipAck (s : State) : exec .skipAck s = .next (s.performOps traceSkipAck) :=
  congrArg Host.Outcome.next s.skipAckSeq_eq

theorem exec_writeBit (v : Bool) (s : State) :
    exec (.writeBit v) s = .next (s.performOps (traceWriteBit v)) :=
  congrArg Host.Outcome.next (s.writeBitSeq_eq v)

theorem exec_writeByte (b : Byte) (s : State) :
    exec (.writeByte b) s = .next (s.performOps (traceWriteByte b)) :=
  congrArg Host.Outcome.next (s.writeByteSeq_eq b)

/-- Settles O11: the levels after the trace of a start. -/
theorem startSequence : Obligations.StartSequence :=
  fun s => exec_eq_of_performOps (exec_start s) (List.cons_ne_nil _ _)

/-- Settles O12: the levels after the trace of a stop. -/
theorem stopSequence : Obligations.StopSequence :=
  fun s => exec_eq_of_performOps (exec_stop s) (List.cons_ne_nil _ _)

/-- Settles O13: the trace of a skip has no data pin op. -/
theorem skipAckSequence : Obligations.SkipAckSequence :=
  fun s => exec_eq_of_performOps (exec_skipAck s) (List.cons_ne_nil _ _)

/-- Settles O14: the levels after the trace of a bit. -/
theorem writeBitSequence : Obligations.WriteBitSequence :=
  fun v s => exec_eq_of_performOps (exec_writeBit v s) (List.cons_ne_nil _ _)

theorem traceWriteByte_ne_nil (b : Byte) : traceWriteByte b ≠ [] :=
  List.ne_nil_of_length_pos (by rw [length_traceWriteByte]; decide)

/-- Settles O15: the levels after the trace of a byte are those after its bit 7. -/
theorem writeByteSequence : Obligations.WriteByteSequence :=
  fun b s => exec_eq_of_performOps (exec_writeByte b s) (traceWriteByte_ne_nil b)

/-! ### The shift register (R144) -/

/-- The register sends bit 0, then what the shifted register sends: the bits in order. -/
theorem shiftedBits_eq (n : Nat) (b : Byte) : shiftedBits n b = (List.range n).map fun i => b.getLsbD i := by
  induction n generalizing b with
  | zero => rfl
  | succ n ih =>
    rw [shiftedBits, ih, List.range_succ_eq_map, List.map_cons, List.map_map]
    simp [Function.comp_def, BitVec.getLsbD_ushiftRight, Nat.add_comm]

/-- The data levels of a byte's trace are its bits (R141). -/
theorem dataLevels_traceWriteByte (b : Byte) :
    (traceWriteByte b).filterMap (fun op => if op.line = .dat then some op.level else none) =
      (List.range 8).map fun i => b.getLsbD i := rfl

/-- The trace of a byte, bit by bit as the register sends them. -/
theorem traceWriteByte_eq_shiftedBits (b : Byte) :
    traceWriteByte b = (shiftedBits 8 b).flatMap traceWriteBit := by
  rw [shiftedBits_eq, List.flatMap_map, traceWriteByte]

/-- Settles O16: the byte's trace is that of the bits the register sends. -/
theorem shiftRegisterSendsTheSameBits : Obligations.ShiftRegisterSendsTheSameBits := by
  intro b
  have hbits := shiftedBits_eq 8 b
  refine ⟨(dataLevels_traceWriteByte b).trans hbits.symm, hbits, fun s => ?_⟩
  have hexec := exec_eq_of_performOps (exec_writeByte b s) (traceWriteByte_ne_nil b)
  refine ⟨_, hexec, ?_⟩
  rw [traceWriteByte_eq_shiftedBits, List.map_flatMap]
  rfl

/-! ### Wire bytes (R90) -/

theorem levelByte_eq (x : BitVec 3) : levelByte x = BitVec.ofNat 8 (0x88 + x.toNat) := by
  revert x
  decide

/-- A byte framed alone leaves both lines released. -/
theorem framedByteSeq_eq_record (b : Byte) (s : State) :
    s.framedByteSeq b = { s with
      clkO := true, datO := true
      w := s.w ++ (frame [b]).map .pin
      dly := BitVec.ofNat Config.dlyW (Config.settleCycles - 1) } := by
  rw [State.framedByteSeq_eq, State.performOps_eq (frame_ne_nil _), levelsAfter_frame]

theorem exec_wireBrightnessDisabled (s : State) :
    exec .wireBrightnessDisabled s = .next (s.framedByteSeq 0x87#8) := rfl

theorem exec_wireBrightnessLevel (x : BitVec 3) (s : State) :
    exec (.wireBrightnessLevel x) s = .next (s.framedByteSeq (levelByte x)) := rfl

theorem exec_wireDataMode (s : State) :
    exec .wireDataMode s = .next (s.framedByteSeq 0x40#8) := rfl

theorem exec_wireAddress0 (s : State) :
    exec .wireAddress0 s = .next (s.performOps (traceStart ++ traceWriteByte 0xC0#8 ++ traceSkipAck)) := by
  rw [State.performOps_append, State.performOps_append]
  rfl

theorem exec_wireSegment (p : Byte) (s : State) :
    exec (.wireSegment p) s = .next (s.performOps (traceWriteByte p ++ traceSkipAck)) :=
  congrArg Host.Outcome.next (s.byteSeq_eq p)

/-- Settles O17: each byte is the trace of its framing. -/
theorem wireBytesAreTransmitted : Obligations.WireBytesAreTransmitted := by
  intro s x p framed
  have hframed (b : Byte) : s.framedByteSeq b = framed b := framedByteSeq_eq_record b s
  refine ⟨?_, ?_, ?_, ?_, ?_⟩
  · rw [exec_wireBrightnessDisabled, hframed]
  · rw [exec_wireBrightnessLevel, hframed, levelByte_eq]
  · rw [exec_wireDataMode, hframed]
  · rw [exec_eq_of_performOps (exec_wireAddress0 s) (List.cons_ne_nil _ _)]
    simp [levelsAfter_append]
  · rw [exec_eq_of_performOps (exec_wireSegment p s) (List.cons_ne_nil _ _)]
    simp [levelsAfter_append]

/-! ## DISPLAY_TEXT as a sequence of instructions (44_command_encoder.md section 3) -/

theorem execAll_append {is : List Instr} {s t : State} (h : execAll is s = .next t) (js : List Instr) :
    execAll (is ++ js) s = execAll js t := by
  induction is generalizing s with
  | nil => cases h; rfl
  | cons i is ih =>
    obtain ⟨u, hu⟩ := exec_answers i s
    rw [execAll, hu] at h
    rw [List.cons_append, execAll, hu]
    exact ih h

/-- A byte and its acknowledgment skip as instructions. -/
def byteSteps (b : Byte) : List Instr := [.writeByte b, .skipAck]

/-- A frame as instructions (R124): a start, the bytes with their acknowledgment skips, a stop. -/
def frameSteps (bytes : List Byte) : List Instr := .start :: bytes.flatMap byteSteps ++ [.stop]

/-- Instructions that, one after the other, perform exactly `ops` and nothing else. -/
def Performs (is : List Instr) (ops : List PinOp) : Prop :=
  ∀ s : State, execAll is s = .next (s.performOps ops)

namespace Performs

variable {is js : List Instr} {as bs : List PinOp}

theorem nil : Performs [] [] := fun _ => rfl

theorem cons {i : Instr} (h : ∀ s, exec i s = .next (s.performOps as)) (h' : Performs is bs) :
    Performs (i :: is) (as ++ bs) := fun s => by
  rw [execAll, h, State.performOps_append]
  exact h' _

theorem append (h : Performs is as) (h' : Performs js bs) : Performs (is ++ js) (as ++ bs) := fun s => by
  rw [execAll_append (h s), h', State.performOps_append]

theorem flatMap {α : Type} {f : α → List Instr} {g : α → List PinOp} (h : ∀ a, Performs (f a) (g a))
    (l : List α) : Performs (l.flatMap f) (l.flatMap g) := by
  induction l with
  | nil => exact nil
  | cons a l ih => exact (h a).append ih

theorem byteSteps (b : Byte) : Performs (byteSteps b) (traceWriteByte b ++ traceSkipAck) := by
  have h := cons (exec_writeByte b) (cons exec_skipAck nil)
  rwa [List.append_nil] at h

theorem stop : Performs [.stop] traceStop := by
  have h := cons exec_stop nil
  rwa [List.append_nil] at h

theorem frameSteps (bytes : List Byte) : Performs (frameSteps bytes) (frame bytes) :=
  (cons exec_start (flatMap byteSteps bytes)).append stop

end Performs

/-- The overlay as DISPLAY_TEXT's third step writes it (R188). -/
theorem dataByte_eq_ite (sep : Bool) (i : Nat) (c : Byte) :
    dataByte sep i c = if i = 1 ∧ sep = true then seg c ||| 0x80#8 else seg c := by
  split
  case isTrue h => rw [h.1, h.2, dataByte_overlay]
  case isFalse h => exact dataByte_plain (mt And.symm h) c

theorem expand_textQueue (sep : Bool) (n : Nat) (chars : List Byte) :
    (textQueue sep n chars).expand = frame [0x40#8] ++
      frame (0xC0#8 :: (List.range n).map fun i => dataByte sep i (chars.getD i 0)) := by
  rw [Queue.expand, frames_textQueue, List.flatMap_cons, List.flatMap_singleton]

/-- Settles O36: the four steps are the two frames of the command. -/
theorem displayTextIsItsFourSteps : Obligations.DisplayTextIsItsFourSteps := by
  intro sep len c0 c1 c2 c3 s n chars steps
  have hsteps : steps = frameSteps [0x40#8] ++
      frameSteps (0xC0#8 :: (List.range n).map fun i => dataByte sep i (chars.getD i 0)) := by
    simp [steps, frameSteps, byteSteps, dataByte_eq_ite, List.flatMap_map]
  have hperf : Performs steps (displayTextQueue sep len c0 c1 c2 c3).expand := by
    rw [hsteps, displayTextQueue, expand_textQueue]
    exact (Performs.frameSteps _).append (Performs.frameSteps _)
  rw [hperf s, State.performOps_eq (Queue.expand_ne_nil _), Queue.levelsAfter_expand]

/-! ## Offers, commands off `IDLE` and outputs (45_dispatch_fsm.md) -/

/-- Off `IDLE` a queue is not accepted (R211). -/
theorem State.acceptQueue_of_not_idle {s : State} (c : Queue) (hi : s.st ≠ .idle) :
    s.acceptQueue c = s := if_neg hi

/-- A command's instruction is RESERVED or the acceptance of a queue. -/
theorem exec_decodeCommand_accepts (word : Word) :
    (∀ s, exec (decodeCommand word) s = .next s) ∨
      ∃ c, ∀ s, exec (decodeCommand word) s = .next (s.acceptQueue c) := by
  obtain h | h | h | h := fieldOp_cases word
  · rw [decodeCommand_of_op_zero h]
    exact .inr ⟨_, exec_setBrightness _⟩
  · rw [decodeCommand_of_op_one h]
    exact .inr ⟨_, exec_displayText _ _ _ _ _ _⟩
  · rw [decodeCommand_of_op_two h]
    exact .inr ⟨_, exec_displayNumber _ _⟩
  · rw [decodeCommand_of_op_three h]
    exact .inl exec_reserved

theorem exec_texts (sep : Bool) (str : List Byte) (s : State) :
    exec (.texts sep str) s = .next (s.acceptQueue (displayTextQueue sep (textsLen str)
      (textsChar str 0) (textsChar str 1) (textsChar str 2) (textsChar str 3))) := rfl

theorem exec_off (s : State) : exec .off s = .next (s.acceptQueue (brightnessQueue 0)) := rfl

/-- Settles O29: what a command would load is not accepted. -/
theorem commandOffIdleLeavesNoTrace : Obligations.CommandOffIdleLeavesNoTrace := by
  intro i s hi hcommand
  obtain ⟨word, rfl⟩ | rfl | ⟨sep, str, rfl⟩ := hcommand
  · obtain hkeep | ⟨c, haccept⟩ := exec_decodeCommand_accepts word
    · exact hkeep s
    · rw [haccept, State.acceptQueue_of_not_idle c hi]
  · rw [exec_off, State.acceptQueue_of_not_idle _ hi]
  · rw [exec_texts, State.acceptQueue_of_not_idle _ hi]

/-- Settles O37: case 2 of R218. -/
theorem idleStepRunsTheOfferedCommand : Obligations.IdleStepRunsTheOfferedCommand := by
  intro s word hi ⟨hrst, hvalid, hword⟩
  rw [step_accept hrst hi hvalid, hword]
  rfl

theorem FsmState.code_eq_zero_iff (st : FsmState) : st.code = 0#3 ↔ st = .idle := by
  cases st <;> decide

/-- The pins are distinct: where the free values meet, the data pin is moved (R46, log 7). -/
theorem clkPin_ne_datPin : Config.clkPin ≠ Config.datPin := by
  unfold Config.clkPin Config.datPin
  split
  case isTrue heq => simp [heq]
  case isFalse hne =>
    rw [Ne, Config.Pin.mk.injEq]
    exact fun h => hne (Prod.ext h.1.symm h.2.symm)

/-- Settles O46: `CMD_READY` compares `st` with `IDLE`, and each pin drives its own line. -/
theorem outputsAndPins : Obligations.OutputsAndPins := by
  intro s
  refine ⟨?_, clkPin_ne_datPin, if_pos rfl, (if_neg clkPin_ne_datPin.symm).trans (if_pos rfl)⟩
  rw [State.cmdReady, decide_eq_true_iff, FsmState.code_eq_zero_iff]

end Sys2Proof.Machine
